-- ==== Sys2Proof/Word.lean ====
section
/-! DEFINITION. The two word types of BRX: a byte and a 64-bit register value (00_scope R9, R11). -/

namespace Sys2Proof

/-- One byte: a lane of the network, a cell of the GBRE memory (00_scope R11, 20_memory R50). -/
abbrev Byte := BitVec 8

/-- A register value or a CMD value: `REG_W = 64` (00_scope R9, 30_encoding R70). -/
abbrev Word := BitVec 64

end Sys2Proof
end

