-- ==== Sys2Proof/Syntax.lean ====
section
/-! DEFINITION. The six commands of BRX (00_scope R4), one constructor per row of the opcode table. -/

namespace Sys2Proof

/-- A command. Its only operand fields are the present bits of the references it takes (30_encoding R72 to R74);
every other operand comes from the registers latched at Accept. -/
inductive Instr where
  /-- SWAP32 (40_permutation_network R102). -/
  | swap32
  /-- SWAP64 (40_permutation_network R104). -/
  | swap64
  /-- FREV32 (40_permutation_network R106). -/
  | frev32
  /-- FREV64 (40_permutation_network R108). -/
  | frev64
  /-- REVIP (41_buffer_reversal R122); `sp`: the buffer is present. -/
  | revip (sp : Bool)
  /-- REVCP (41_buffer_reversal R124); `sp`: the input is present, `dp`: the output is present. -/
  | revcp (sp dp : Bool)
deriving DecidableEq, Repr

end Sys2Proof
end

