-- ==== Sys2Proof/WellFormed.lean ====
section
/-! DEFINITION. The one command format as fields (30_encoding R70) and what makes a command word well formed
(30_encoding R71, R74, R76). -/

namespace Sys2Proof

/-- The fields of a 64-bit CMD value (30_encoding R70). -/
structure Fields where
  /-- Bits 3:0. -/
  op : BitVec 4
  /-- Bits 7:4, reserved. -/
  res0 : BitVec 4
  /-- Bit 8: source or buffer reference present. -/
  sp : Bool
  /-- Bit 9: destination reference present. -/
  dp : Bool
  /-- Bits 31:10, reserved. -/
  res1 : BitVec 22
  /-- Bits 63:32, reserved. -/
  res2 : BitVec 32
deriving DecidableEq, Repr

/-- Every reserved field is 0 (30_encoding R70, R76). -/
def Fields.reservedClear (f : Fields) : Bool := f.res0 == 0 && f.res1 == 0 && f.res2 == 0

/-- OP names a command (30_encoding R71). -/
def Fields.knownOp (f : Fields) : Bool := 1 ≤ f.op.toNat && f.op.toNat ≤ 6

/-- No present bit is set that the operation does not take (30_encoding R74). -/
def Fields.refsTaken (f : Fields) : Bool :=
  match f.op.toNat with
  | 5 => !f.dp
  | 6 => true
  | _ => !f.sp && !f.dp

/-- `Legal` on fields (30_encoding R76). -/
def Fields.wellFormed (f : Fields) : Bool := f.reservedClear && f.knownOp && f.refsTaken

/-- The fields of a command (30_encoding R71, R74, R75). -/
def Instr.fields : Instr → Fields
  | .swap32 => ⟨1, 0, false, false, 0, 0⟩
  | .swap64 => ⟨2, 0, false, false, 0, 0⟩
  | .frev32 => ⟨3, 0, false, false, 0, 0⟩
  | .frev64 => ⟨4, 0, false, false, 0, 0⟩
  | .revip sp => ⟨5, 0, sp, false, 0, 0⟩
  | .revcp sp dp => ⟨6, 0, sp, dp, 0, 0⟩

/-- A command is well formed when its fields are. The constructors of `Instr` carry only the present bits a command
takes, so every command is; the checks refuse ill-formed FIELDS. -/
def Instr.wellFormed (i : Instr) : Bool := i.fields.wellFormed

end Sys2Proof
end

