-- ==== Sys2Proof/Decode.lean ====
section
/-! DEFINITION. Bytes and words (00_scope R11, 10_state R25), the decoder of a CMD value, rejecting by name
(30_encoding R70 to R77), and the encoder after it (30_encoding R75, R79). -/

namespace Sys2Proof

/-- Byte `k` of a value: `v[8k+7:8k]` (00_scope R11). -/
def byteOf {w : Nat} (v : BitVec w) (k : Nat) : Byte := v.extractLsb' (8 * k) 8

/-- The value whose byte `k` is the `k`-th of the list, byte 0 least significant (00_scope R11, 10_state R25). -/
def wordOfBytes : List Byte → Word
  | [] => 0
  | b :: bs => b.setWidth 64 ||| (wordOfBytes bs <<< 8)

/-- The eight bytes of a register value in bus order, lowest address first (10_state R25). -/
def bytesOfWord (v : Word) : List Byte := (List.range 8).map (byteOf v)

/-- Why a CMD value is illegal (30_encoding R77), or too short to be one. -/
inductive DecodeReject where
  /-- Fewer than the eight bytes of a CMD value (30_encoding R78). -/
  | tooShort
  /-- OP = 0x0. -/
  | opZero
  /-- OP in 0x7 to 0xF. -/
  | opReserved
  /-- A reserved bit is set. -/
  | reservedBit
  /-- A present bit is set that the operation does not take. -/
  | refNotTaken
deriving DecidableEq, Repr

/-- The fields of a CMD value (30_encoding R70). -/
def fieldsOf (v : Word) : Fields :=
  { op := v.extractLsb' 0 4, res0 := v.extractLsb' 4 4, sp := v.getLsbD 8, dp := v.getLsbD 9,
    res1 := v.extractLsb' 10 22, res2 := v.extractLsb' 32 32 }

/-- The command that fields name, or the kind of 30_encoding R77 that makes them illegal. -/
def instrOfFields (f : Fields) : Except DecodeReject Instr :=
  if f.res0 ≠ 0 ∨ f.res1 ≠ 0 ∨ f.res2 ≠ 0 then .error .reservedBit
  else
    match f.op.toNat with
    | 0 => .error .opZero
    | 1 => if f.sp || f.dp then .error .refNotTaken else .ok .swap32
    | 2 => if f.sp || f.dp then .error .refNotTaken else .ok .swap64
    | 3 => if f.sp || f.dp then .error .refNotTaken else .ok .frev32
    | 4 => if f.sp || f.dp then .error .refNotTaken else .ok .frev64
    | 5 => if f.dp then .error .refNotTaken else .ok (.revip f.sp)
    | 6 => .ok (.revcp f.sp f.dp)
    | _ => .error .opReserved

/-- The decoder of a CMD value: total; `.error` exactly where `Legal` of 30_encoding R76 fails. -/
def decode (v : Word) : Except DecodeReject Instr := instrOfFields (fieldsOf v)

/-- The decoder on bytes as the bus carries them, with the rest of the bytes. -/
def decodeBytes : List Byte → Except DecodeReject (Instr × List Byte)
  | b0 :: b1 :: b2 :: b3 :: b4 :: b5 :: b6 :: b7 :: rest =>
    (decode (wordOfBytes [b0, b1, b2, b3, b4, b5, b6, b7])).map (fun i => (i, rest))
  | _ => .error .tooShort

/-- What the decoder reads from an instruction of the opcode table whose bits are `w`. -/
def decodeTableWord (nbits w : Nat) : Option Instr :=
  match decodeBytes (bytesOfWord (BitVec.ofNat 64 (w % 2 ^ nbits))) with
  | .ok (i, _) => some i
  | .error _ => none

/-- The CMD value of a command (30_encoding R75, R79). -/
def encode : Instr → Word
  | .swap32 => 0x001
  | .swap64 => 0x002
  | .frev32 => 0x003
  | .frev64 => 0x004
  | .revip sp => 0x005 ||| (if sp then 0x100 else 0)
  | .revcp sp dp => 0x006 ||| (if sp then 0x100 else 0) ||| (if dp then 0x200 else 0)

end Sys2Proof
end

