-- ==== Sys2Proof/Config.lean ====
section
/-! DEFINITION. What the spec leaves to the platform (00_scope R9, 20_memory R51, R52, R57) and the free values of
its races and abandoned commands (20_memory R58, 70_reset_and_hazards R161). -/

namespace Sys2Proof.Config

/-- The kind of a GBRE access (20_memory R52). -/
inductive AccessKind where
  | read
  | write
deriving DecidableEq, Repr

/-- One line of the platform's answer to `Admit` (20_memory R52): what it says for the addresses `first` to `last`. -/
structure AdmitRule where
  first : Nat
  last : Nat
  readable : Bool
  writable : Bool
deriving DecidableEq, Repr

/-- The parameters of 00_scope R9 that a platform fixes, as plain data: no step changes them. `Admit` is a finite
list of rules, the first that covers an address decides; every total predicate on a finite address space has
this form. Log entry 1 (DESIGN CHOICE: carried in the state, so that a claim over every state is a claim over every
platform). -/
structure Platform where
  /-- `ADDR_W - 1`: the width is 1 to 64 (00_scope R9). -/
  addrWPred : Fin 64
  /-- `BRX_BASE / 0x100`: the base is a multiple of 0x100 (00_scope R9). -/
  basePage : Nat
  /-- The rules of `Admit`, first match first. -/
  admission : List AdmitRule
  /-- `Admit` for reading an address that no rule covers. -/
  otherReadable : Bool
  /-- `Admit` for writing an address that no rule covers. -/
  otherWritable : Bool
  /-- The GBRE-port addresses at which the port would reach BRX's own window (20_memory R51). -/
  ownWindows : List Nat
  /-- Ranges `(first, last)` of locations with access side effects (20_memory R57, 93 U6). -/
  sideEffects : List (Nat × Nat)
deriving DecidableEq, Repr

/-- The reference configuration (00_scope R9; the conventions of 95_test_vectors): `ADDR_W = 64`, `Admit` true
everywhere, ordinary memory only. `BRX_BASE = 0` is a DESIGN CHOICE (log entry 1). -/
def Platform.reference : Platform :=
  { addrWPred := 63, basePage := 0, admission := [], otherReadable := true, otherWritable := true,
    ownWindows := [], sideEffects := [] }

/-- FREE VALUE: the byte of draw `d` at address `a`: what a racing read returns, what a byte of a written region
holds after a race or after a reset cut its command (20_memory R58, 70 R161; 93 U4, U7, U16). Log entry 5. -/
opaque anyByte : (d a : Nat) → Byte

/-- FREE VALUE: whether the racing write of draw `d` to a written region byte is lost (20_memory R58). Log entry 5. -/
opaque writeLost : (d : Nat) → Bool

end Sys2Proof.Config
end

