-- ==== Sys2Proof/Machine/State.lean ====
section
/-! DEFINITION. The machine's state as plain data: the registers of BRX (10_state R20 to R39), the GBRE memory
(20_memory R50), and the agents around the block (00_scope R5). -/

namespace Sys2Proof.Machine

/-- The outcome of a command (60_exceptions R140). Codes 6 to 15 are never produced, so they are no constructor
(93 U15). -/
inductive ErrCode where
  | ok
  | illegalCmd
  | outAbsent
  | range
  /-- ALIAS, code 4. -/
  | aliased
  | memFault
deriving DecidableEq, Repr

/-- The fields of STATUS (10_state R28); its reserved bits read 0 and are not stored. -/
structure Status where
  busy : Bool
  done : Bool
  ovr : Bool
  err : ErrCode
deriving DecidableEq, Repr

/-- The latched command `cur` (10_state R35). `src` and `dst` hold `ADDR_W`-bit addresses. -/
structure Latched where
  cmd : Word
  din : Word
  src : Word
  dst : Word
  len : Word
deriving DecidableEq, Repr

/-- The GBRE memory (20_memory R50): the bytes that differ from what an unlisted address reads as, addresses strictly
rising (`Memory.wf`). -/
abbrev Memory := List Host.Cell

/-- The byte addresses `[base, base + len)` (00_scope R19). -/
structure Region where
  base : Nat
  len : Nat
deriving DecidableEq, Repr

/-- One access an agent makes: a line of a host program (30_encoding R80), or another master's access. -/
inductive Action where
  /-- Read `bytes` bytes from bus address `addr` (10_state R21, R22). -/
  | busRead (addr bytes : Nat)
  /-- Write the bytes of `data`, lane `k` at bus address `addr + k` (10_state R21, R22, R25). -/
  | busWrite (addr : Nat) (data : List Byte)
  /-- Read STATUS, and repeat until BUSY = 0 (30_encoding R80). -/
  | poll
  /-- Load one byte of the GBRE memory (20_memory R51, R58). -/
  | load (addr : Nat)
  /-- Store one byte to the GBRE memory (20_memory R51, R58). -/
  | store (addr : Nat) (b : Byte)
  /-- Make every store done so far visible to the GBRE port (20_memory R59). -/
  | fence
deriving DecidableEq, Repr

/-- Who moves (00_scope R5). -/
inductive Turn where
  /-- The host runs its next line. -/
  | host
  /-- The sequencer completes the command in flight, if there is one (10_state R43). -/
  | sequencer
  /-- Another bus master makes an access (20_memory R58, 60_exceptions R153). -/
  | other (act : Action)
  /-- The platform makes the host's oldest pending store visible to the GBRE port (20_memory R59). -/
  | visible
  /-- The platform asserts the reset input (70_reset_and_hazards R160). -/
  | resetOn
  /-- The platform deasserts the reset input (70_reset_and_hazards R160). -/
  | resetOff
deriving DecidableEq, Repr

/-- What the most recent access got back (10_state R22, R25). -/
inductive Reply where
  /-- No access was made yet. -/
  | none
  /-- A read's bytes, lowest address first. -/
  | data (bytes : List Byte)
  /-- A write, a store or a fence went through (an ignored write too: 10_state R23, R24). -/
  | taken
  /-- The platform's bus error for a window access of the wrong width or alignment (10_state R22). -/
  | busError
  /-- The access is outside the window: BRX does not decode it (10_state R21). -/
  | notDecoded
deriving DecidableEq, Repr

/-- Everything the spec gives the machine, the platform around it, and the schedule. -/
structure State where
  /-- ADDR_W, BRX_BASE, Admit (00_scope R9); no step changes it. -/
  platform : Config.Platform
  /-- STATUS (10_state R28). -/
  status : Status
  /-- CMD (10_state R34). -/
  cmd : Word
  /-- DIN (10_state R36). -/
  din : Word
  /-- DOUT (10_state R37). -/
  dout : Word
  /-- SRC (10_state R38). -/
  src : Word
  /-- DST (10_state R38). -/
  dst : Word
  /-- LEN (10_state R39). -/
  len : Word
  /-- The latched command (10_state R35). -/
  cur : Latched
  /-- The GBRE memory (20_memory R50). -/
  mem : Memory
  /-- The level of the reset input (70_reset_and_hazards R160). -/
  resetAsserted : Bool
  /-- MODEL: an agent accessed the regions of the command in flight (20_memory R58). Log entry 5. -/
  raced : Bool
  /-- MODEL: host stores not yet visible to the GBRE port, oldest first (20_memory R59). Log entry 10. -/
  unseen : List Host.Cell
  /-- MODEL: how many free values were drawn. Log entry 5. -/
  draws : Nat
  /-- MODEL: the host's remaining program (30_encoding R80). Log entry 4. -/
  host : List Action
  /-- MODEL: who moves next, first the head (00_scope R9, `LAT`). Log entry 3. -/
  turns : List Turn
  /-- MODEL: the reply to the most recent access. Log entry 19. -/
  reply : Reply
deriving DecidableEq, Repr

/-- Why the machine stops with a fault. BRX itself never faults (60_exceptions R144). -/
inductive Fault where
  /-- A host or another master loads or stores at an address the GBRE memory does not have (20_memory R50). Raised by
  the memory accesses of those agents, never by a command (00_scope R13). Safe. Log entry 14. -/
  | noSuchAddress
deriving DecidableEq, Repr

/-- Why the machine gives no meaning. -/
inductive Refusal where
  /-- An instruction without a meaning yet: raised by an arm of `exec`. Safe. -/
  | notModelled (mnemonic : String)
  /-- An access to a location with access side effects: the spec fixes neither the effect nor its order
  (20_memory R57; 93 U6 says refuse). Raised by a command about to access it, and by a load or store. Safe.
  Log entry 13. -/
  | sideEffectLocation
deriving DecidableEq, Repr

/-- STATUS after reset (10_state R47). -/
def Status.afterReset : Status := { busy := false, done := false, ovr := false, err := .ok }

/-- `cur` after reset (10_state R47). -/
def Latched.afterReset : Latched := { cmd := 0, din := 0, src := 0, dst := 0, len := 0 }

/-- A machine on platform `p` right after reset (10_state R47, 70_reset_and_hazards R162): nothing in flight, no
program placed, nothing listed in memory. -/
def State.resetOn (p : Config.Platform) : State :=
  { platform := p, status := Status.afterReset, cmd := 0, din := 0, dout := 0, src := 0, dst := 0, len := 0,
    cur := Latched.afterReset, mem := [], resetAsserted := false, raced := false, unseen := [], draws := 0,
    host := [], turns := [], reply := .none }

/-- The machine right after reset, in the reference configuration (10_state R47; log entries 1 to 5). -/
def State.reset : State := State.resetOn Config.Platform.reference

end Sys2Proof.Machine
end

