-- ==== Sys2Proof/Machine/Ops.lean ====
section
/-! DEFINITION. The named operations every meaning is written over: the platform's answers, the GBRE memory, the race
and reset effects on memory, and `complete` (60_exceptions R141), which is how BRX ends a command in place of a trap
(60_exceptions R144). -/

namespace Sys2Proof.Machine

/-- What a step answers. -/
abbrev Result := Host.Outcome State Fault Refusal

/-! ### The platform -/

/-- `ADDR_W`, 1 to 64 (00_scope R9). -/
def addrW (p : Config.Platform) : Nat := p.addrWPred.val + 1

/-- How many byte addresses the GBRE memory has (20_memory R50). -/
abbrev memSize (p : Config.Platform) : Nat := 2 ^ addrW p

/-- `BRX_BASE` (00_scope R9). -/
abbrev brxBase (p : Config.Platform) : Nat := p.basePage * 0x100

/-- The size of the register window (10_state R21). -/
abbrev windowSize : Nat := 0x100

/-- `[first, last]` holds `a`. -/
def inRangePair (a : Nat) (r : Nat × Nat) : Bool := decide (r.1 ≤ a) && decide (a ≤ r.2)

/-- What the platform's rules say for an address, first match first. -/
def admissionOf (p : Config.Platform) (k : Config.AccessKind) (a : Nat) : Bool :=
  match p.admission.find? (fun r => inRangePair a (r.first, r.last)), k with
  | some r, .read => r.readable
  | some r, .write => r.writable
  | none, .read => p.otherReadable
  | none, .write => p.otherWritable

/-- The GBRE port would reach BRX's own window at `a` (20_memory R51). -/
def reachesOwnWindow (p : Config.Platform) (a : Nat) : Bool :=
  p.ownWindows.any (fun w => decide (w ≤ a) && decide (a < w + windowSize))

/-- `Admit(a, k)` (20_memory R52): false for BRX's own window (20_memory R51). -/
def admits (p : Config.Platform) (k : Config.AccessKind) (a : Nat) : Bool :=
  admissionOf p k a && !reachesOwnWindow p a

/-- `a` is a location with access side effects (20_memory R57). -/
def hasSideEffects (p : Config.Platform) (a : Nat) : Bool := p.sideEffects.any (inRangePair a)

/-! ### Memory -/

/-- What an unlisted address reads as (95_test_vectors: "Memory bytes not listed are 00"). Log entry 2, DESIGN CHOICE. -/
def Memory.fill : Byte := 0

/-- `MemRead(a, 1)` (00_scope R14, 20_memory R53). -/
def Memory.read : Memory → Nat → Byte
  | [], _ => Memory.fill
  | (k, v) :: m, a => if k = a then v else Memory.read m a

/-- `MemWrite(a, 1, b)` (00_scope R14, 20_memory R53), keeping the canonical form. -/
def Memory.write : Memory → Nat → Byte → Memory
  | [], a, b => if b = Memory.fill then [] else [(a, b)]
  | (k, v) :: m, a, b =>
    if a < k then (if b = Memory.fill then (k, v) :: m else (a, b) :: (k, v) :: m)
    else if a = k then (if b = Memory.fill then m else (a, b) :: m)
    else (k, v) :: Memory.write m a b

/-- Every listed address is at least `lo`, the addresses rise strictly, and no listed byte is the fill byte. -/
def Memory.wfFrom : Nat → Memory → Bool
  | _, [] => true
  | lo, (k, v) :: m => decide (lo ≤ k) && decide (v ≠ Memory.fill) && Memory.wfFrom (k + 1) m

/-- The canonical form: equal memories are equal lists. -/
def Memory.wf (m : Memory) : Bool := Memory.wfFrom 0 m

/-- Bytes written from address `a` upward (30_encoding R80, `mem[a] = b0 b1 ...`). -/
def Memory.place (m : Memory) (a : Nat) : List Byte → Memory
  | [] => m
  | b :: bs => Memory.place (Memory.write m a b) (a + 1) bs

/-- `f` holds of every number below `n`. -/
def allBelow : Nat → (Nat → Bool) → Bool
  | 0, _ => true
  | n + 1, f => f n && allBelow n f

/-- One iteration of REVIP's loop (41_buffer_reversal R122): exchange the bytes at `lo` and `hi`. -/
def swapPair (m : Memory) (lo hi : Nat) : Memory :=
  let t := m.read lo
  let u := m.read hi
  (m.write lo u).write hi t

/-- The first `k` iterations of REVIP's loop over `[base, base + n)` (41_buffer_reversal R122). -/
def swapPairs (m : Memory) (base n : Nat) : Nat → Memory
  | 0 => m
  | k + 1 => swapPair (swapPairs m base n k) (base + k) (base + n - 1 - k)

/-- The first `k` iterations of REVCP's loop (41_buffer_reversal R124). -/
def copyReversed (m : Memory) (src dst n : Nat) : Nat → Memory
  | 0 => m
  | k + 1 =>
    let m' := copyReversed m src dst n k
    m'.write (dst + k) (m'.read (src + n - 1 - k))

/-- The bytes `[base, base + n)` hold any value: the free bytes of draw `d`. -/
def scramble (m : Memory) (d base : Nat) : Nat → Memory
  | 0 => m
  | k + 1 => (scramble m d base k).write (base + k) (Config.anyByte d (base + k))

/-! ### Regions -/

/-- `a` is an address of the region (00_scope R19). -/
def Region.contains (r : Region) (a : Nat) : Bool := decide (r.base ≤ a) && decide (a < r.base + r.len)

/-- No byte at all. -/
def Region.empty : Region := ⟨0, 0⟩

/-- The part of a region that lies in the address space. -/
def Region.clip (p : Config.Platform) (r : Region) : Region := ⟨r.base, min r.len (memSize p - r.base)⟩

/-- The region a command writes, from the latched operands (41_buffer_reversal R120, 20_memory R58,
70_reset_and_hazards R161). Those rules make no exception for an absent reference (log entry 6). -/
def writtenRegion (i : Instr) (c : Latched) : Region :=
  match i with
  | .swap32 => Region.empty
  | .swap64 => Region.empty
  | .frev32 => Region.empty
  | .frev64 => Region.empty
  | .revip _ => ⟨c.src.toNat, c.len.toNat⟩
  | .revcp _ _ => ⟨c.dst.toNat, c.len.toNat⟩

/-- The region a command reads, from the latched operands (20_memory R58; an absent reference: log entry 6). -/
def inputRegion (i : Instr) (c : Latched) : Region :=
  match i with
  | .swap32 => Region.empty
  | .swap64 => Region.empty
  | .frev32 => Region.empty
  | .frev64 => Region.empty
  | .revip _ => ⟨c.src.toNat, c.len.toNat⟩
  | .revcp _ _ => ⟨c.src.toNat, c.len.toNat⟩

/-- The byte belongs to the command in flight (20_memory R58); an illegal word is no GBRE command and owns nothing. -/
def owns (s : State) (a : Nat) : Bool :=
  s.status.busy &&
    match decode s.cur.cmd with
    | .ok i => (inputRegion i s.cur).contains a || (writtenRegion i s.cur).contains a
    | .error _ => false

/-- The byte belongs to the region that the command in flight writes (20_memory R58). -/
def ownsWritten (s : State) (a : Nat) : Bool :=
  s.status.busy &&
    match decode s.cur.cmd with
    | .ok i => (writtenRegion i s.cur).contains a
    | .error _ => false

/-! ### Updates of the state -/

/-- `x[DOUT] <- v`. -/
def State.setDout (s : State) (v : Word) : State := { s with dout := v }

/-- `Mem' = m`. -/
def State.setMem (s : State) (m : Memory) : State := { s with mem := m }

/-- What an access got back. -/
def State.setReply (s : State) (r : Reply) : State := { s with reply := r }

/-- Every byte of the region holds any value: one draw of free bytes. -/
def State.scrambleRegion (s : State) (r : Region) : State :=
  let c := r.clip s.platform
  { s with mem := scramble s.mem s.draws c.base c.len, draws := s.draws + 1 }

/-- The race's effect at Complete (20_memory R58): where the regions were accessed, every byte of the written region
holds any value, whatever the command's outcome (20_memory R61; log entry 7). -/
def State.settleRace (s : State) (written : Region) : State :=
  if s.raced then { s.scrambleRegion written with raced := false } else s

/-- `complete(err)` (60_exceptions R141): the one way a command ends; OVR is not changed. -/
def State.complete (s : State) (err : ErrCode) : State :=
  { s with status := { s.status with err := err, busy := false, done := true } }

/-- A GBRE command ends with `err`, after the race's effect on its written region. -/
def finish (s : State) (written : Region) (err : ErrCode) : Result := .next ((s.settleRace written).complete err)

end Sys2Proof.Machine
end

