-- ==== Sys2Proof/Machine/Flags.lean ====
section
/-! DEFINITION. STATUS and ID as the host reads them, and the STATUS values of Accept and of a rejected write
(10_state R26 to R33, R41, R42; 60_exceptions R140). BRX has no condition codes (10_state R44). -/

namespace Sys2Proof.Machine

/-- STATUS.ERR of an outcome (60_exceptions R140). -/
def errCode : ErrCode → Nat
  | .ok => 0
  | .illegalCmd => 1
  | .outAbsent => 2
  | .range => 3
  | .aliased => 4
  | .memFault => 5

/-- The one-bit field at position `k`. -/
def bitAt (k : Nat) (b : Bool) : Word := if b then BitVec.ofNat 64 (2 ^ k) else 0

/-- STATUS as it reads (10_state R28): BUSY bit 0, DONE bit 1, OVR bit 2, ERR bits 7:4, the rest 0. -/
def statusWord (t : Status) : Word :=
  bitAt 0 t.busy ||| bitAt 1 t.done ||| bitAt 2 t.ovr ||| BitVec.ofNat 64 (errCode t.err * 2 ^ 4)

/-- STATUS after Accept: BUSY=1, DONE=0, OVR=0, ERR=0 (10_state R41). -/
def Status.accepted : Status := { busy := true, done := false, ovr := false, err := .ok }

/-- STATUS after a rejected CMD write: OVR <- 1 (10_state R42). -/
def Status.overrun (t : Status) : Status := { t with ovr := true }

/-- ID.MAGIC (10_state R26). -/
def idMagic : Nat := 0x42525831

/-- ID.REV (10_state R26). -/
def idRev : Nat := 0x01

/-- ID as it reads at every time (10_state R27). -/
def idWord (p : Config.Platform) : Word := BitVec.ofNat 64 (addrW p * 2 ^ 40 + idRev * 2 ^ 32 + idMagic)

end Sys2Proof.Machine
end

