-- ==== Sys2Proof/Machine/Operands.lean ====
section
/-! DEFINITION. The operand forms: what a command reads from the latched operands (30_encoding R72), and how an
address register keeps `ADDR_W` bits (10_state R38). -/

namespace Sys2Proof.Machine

/-- `cur.din[31:0]` (40_permutation_network R102, R106). -/
def din32 (s : State) : BitVec 32 := s.cur.din.extractLsb' 0 32

/-- `cur.din[63:0]` (40_permutation_network R104, R108). -/
def din64 (s : State) : Word := s.cur.din

/-- `cur.src` as an address (41_buffer_reversal R122, R124; 00_scope R13: unbounded integers). -/
abbrev srcAddr (s : State) : Nat := s.cur.src.toNat

/-- `cur.dst` as an address (41_buffer_reversal R124). -/
abbrev dstAddr (s : State) : Nat := s.cur.dst.toNat

/-- `cur.len` (41_buffer_reversal R122, R124). -/
abbrev byteCount (s : State) : Nat := s.cur.len.toNat

/-- `v[ADDR_W-1:0]`, bits 63 down to `ADDR_W` zero (10_state R38). -/
def addrBits (p : Config.Platform) (v : Word) : Word := BitVec.ofNat 64 (v.toNat % memSize p)

/-- SRC as it reads (10_state R38). -/
def srcReg (s : State) : Word := addrBits s.platform s.src

/-- DST as it reads (10_state R38). -/
def dstReg (s : State) : Word := addrBits s.platform s.dst

end Sys2Proof.Machine
end

