-- ==== Sys2Proof/Machine/Window.lean ====
section
/-! DEFINITION. The register window (10_state R21 to R25, R34 to R39), Accept (R41), the rejected CMD write (R42), and
the race of host stores that are not visible at Accept (20_memory R59). -/

namespace Sys2Proof.Machine

/-- A read of the register at an aligned offset (10_state R21); a reserved offset reads 0 (R23). -/
def readReg (s : State) (off : Nat) : Word :=
  match off with
  | 0x00 => idWord s.platform
  | 0x08 => statusWord s.status
  | 0x10 => s.cmd
  | 0x18 => s.din
  | 0x20 => s.dout
  | 0x28 => srcReg s
  | 0x30 => dstReg s
  | 0x38 => s.len
  | _ => 0

/-- An agent's store that races with the command in flight (20_memory R58): a store to a byte of the written region
may be lost, which a free value decides; any other lands, at once (log entry 23). -/
def State.raceStore (s : State) (c : Host.Cell) : State :=
  { s with
    mem := if ownsWritten s c.1 && Config.writeLost s.draws then s.mem else s.mem.write c.1 c.2
    draws := s.draws + 1
    raced := true }

/-- The registers and `cur` of Accept (10_state R41). -/
def State.latch (s : State) (v : Word) : State :=
  { s with
    cmd := v
    cur := { cmd := v, din := s.din, src := srcReg s, dst := dstReg s, len := s.len }
    status := Status.accepted
    raced := false }

/-- The host stores still on their way to a byte of the command in flight race with it, in their order (20_memory R59,
R58; log entry 11). -/
def State.raceUnseen (s : State) : State :=
  (s.unseen.filter (fun c => owns s c.1)).foldl State.raceStore
    { s with unseen := s.unseen.filter (fun c => !owns s c.1) }

/-- Accept (10_state R41): the host writes `v` to CMD while BUSY = 0. -/
def State.accept (s : State) (v : Word) : State := (s.latch v).raceUnseen

/-- The rejected CMD write (10_state R42). -/
def State.reject (s : State) : State := { s with status := s.status.overrun }

/-- A write of `v` to the register at an aligned offset (10_state R21): CMD by R41 or R42, the operand registers by
R36, R38 and R39 (BUSY or not: R48); the rest ignore it (R23, R24). -/
def writeReg (s : State) (off : Nat) (v : Word) : State :=
  match off with
  | 0x10 => if s.status.busy then s.reject else s.accept v
  | 0x18 => { s with din := v }
  | 0x28 => { s with src := addrBits s.platform v }
  | 0x30 => { s with dst := addrBits s.platform v }
  | 0x38 => { s with len := v }
  | _ => s

/-- A bus access of `bytes` bytes at `addr` touches the window (10_state R21, R22). -/
def touchesWindow (p : Config.Platform) (addr bytes : Nat) : Bool :=
  decide (addr < brxBase p + windowSize) && decide (brxBase p < addr + bytes)

/-- A bus access is one the window takes: 64 bits at an offset that is a multiple of 8 (10_state R22). -/
def fullAligned (p : Config.Platform) (addr bytes : Nat) : Bool :=
  decide (bytes = 8) && decide (brxBase p ≤ addr) && decide ((addr - brxBase p) % 8 = 0)

/-- A read over the bus (10_state R21, R22, R25). -/
def busRead (s : State) (addr bytes : Nat) : State :=
  if touchesWindow s.platform addr bytes = false then s.setReply .notDecoded
  else if fullAligned s.platform addr bytes = false then s.setReply .busError
  else s.setReply (.data (bytesOfWord (readReg s (addr - brxBase s.platform))))

/-- A write over the bus (10_state R21, R22, R25). While reset is asserted every register keeps its reset value
(70_reset_and_hazards R160; log entry 9). -/
def busWrite (s : State) (addr : Nat) (data : List Byte) : State :=
  if touchesWindow s.platform addr data.length = false then s.setReply .notDecoded
  else if fullAligned s.platform addr data.length = false then s.setReply .busError
  else if s.resetAsserted then s.setReply .taken
  else (writeReg s (addr - brxBase s.platform) (wordOfBytes data)).setReply .taken

end Sys2Proof.Machine
end

