-- ==== Sys2Proof/Machine/Agents.lean ====
section
/-! DEFINITION. The agents around the block (00_scope R5): the host and other masters at the memory, with the races of
20_memory R58 and the visibility of R59; the reset input (70_reset_and_hazards R160, R161). -/

namespace Sys2Proof.Machine

/-- Which master makes an access: the host's stores reach the GBRE port late (20_memory R59). -/
inductive Master where
  | host
  | other
deriving DecidableEq, Repr

/-- What a list of pending stores says of an address, the newest first. -/
def pendingByte : List Host.Cell → Nat → Option Byte
  | [], _ => none
  | c :: cs, a =>
    match pendingByte cs a with
    | some b => some b
    | none => if c.1 = a then some c.2 else none

/-- The byte a master sees: the host sees its own stores at once. -/
def viewByte (s : State) (who : Master) (a : Nat) : Byte :=
  match who with
  | .other => s.mem.read a
  | .host => (pendingByte s.unseen a).getD (s.mem.read a)

/-- A load of one byte; a racing one returns any value and marks the race (20_memory R58). -/
def loadByte (s : State) (who : Master) (a : Nat) : Result :=
  if memSize s.platform ≤ a then .fault .noSuchAddress
  else if hasSideEffects s.platform a then .refused .sideEffectLocation
  else if owns s a then
    .next { s with reply := .data [Config.anyByte s.draws a], draws := s.draws + 1, raced := true }
  else .next (s.setReply (.data [viewByte s who a]))

/-- The store of one byte; a racing one may be lost and marks the race (20_memory R58), the host's others wait to become
visible (20_memory R59). DESIGN CHOICE: a racing host store reaches memory at once and does not wait in `unseen`; the
spec is silent on when one to an input-only byte does (log entry 23). -/
def storeByte (s : State) (who : Master) (a : Nat) (b : Byte) : Result :=
  if memSize s.platform ≤ a then .fault .noSuchAddress
  else if hasSideEffects s.platform a then .refused .sideEffectLocation
  else if owns s a then .next ((s.raceStore (a, b)).setReply .taken)
  else
    match who with
    | .host => .next { s with unseen := s.unseen ++ [(a, b)], reply := .taken }
    | .other => .next ((s.setMem (s.mem.write a b)).setReply .taken)

/-- One host store reaches the memory (20_memory R59). In every state a run reaches the byte is not owned: the stores
that would race left the list at Accept. -/
def State.landStore (s : State) (c : Host.Cell) : State :=
  if owns s c.1 then s.raceStore c else s.setMem (s.mem.write c.1 c.2)

/-- The oldest pending host store becomes visible to the GBRE port (20_memory R59). -/
def State.makeVisible (s : State) : State :=
  match s.unseen with
  | [] => s
  | c :: cs => { s with unseen := cs }.landStore c

/-- Every pending host store becomes visible, oldest first (20_memory R59). -/
def State.makeAllVisible (s : State) : State := s.unseen.foldl State.landStore { s with unseen := [] }

/-- One access of a master. `poll` reads STATUS (30_encoding R80). DESIGN CHOICE: the host and every other master reach
the register window, with the same rights, on every platform; 60_exceptions R150 leaves to the platform which masters may
(log entry 24). -/
def act (s : State) (who : Master) (x : Action) : Result :=
  match x with
  | .busRead addr bytes => .next (busRead s addr bytes)
  | .busWrite addr data => .next (busWrite s addr data)
  | .poll => .next (busRead s (brxBase s.platform + 0x08) 8)
  | .load a => loadByte s who a
  | .store a b => storeByte s who a b
  | .fence =>
    match who with
    | .host => .next (s.makeAllVisible.setReply .taken)
    | .other => .next (s.setReply .taken)

/-- The line is not finished: a poll that found BUSY = 1 (30_encoding R80). -/
def repeats (s : State) (x : Action) : Bool :=
  match x with
  | .poll => s.status.busy
  | .busRead _ _ => false
  | .busWrite _ _ => false
  | .load _ => false
  | .store _ _ => false
  | .fence => false

/-- The host runs its next line (30_encoding R80); a host without one does nothing. -/
def hostTurn (s : State) : Result :=
  match s.host with
  | [] => .next s
  | x :: rest => act { s with host := if repeats s x then x :: rest else rest } .host x

/-- What a reset does to memory: nothing, but where it cuts a GBRE command, whose written region then holds any value
(70_reset_and_hazards R160, R161). DESIGN CHOICE: where the regions of a REVCP overlap, R161 says of the shared bytes both
that they hold any value and that they are unchanged; they become free (log entry 8). -/
def State.abandon (s : State) : State :=
  if s.status.busy then
    match decode s.cur.cmd with
    | .ok i => s.scrambleRegion (writtenRegion i s.cur)
    | .error _ => s
  else s

/-- Every piece of BRX state takes its reset value (10_state R47, 70_reset_and_hazards R160). -/
def State.clearBrx (s : State) : State :=
  { s with
    status := Status.afterReset, cmd := 0, din := 0, dout := 0, src := 0, dst := 0, len := 0
    cur := Latched.afterReset, raced := false }

/-- The platform asserts reset (70_reset_and_hazards R160, R161); it wins over a Complete (60_exceptions R146). -/
def State.assertReset (s : State) : State := { s.abandon.clearBrx with resetAsserted := true }

/-- The platform deasserts reset (70_reset_and_hazards R160, R162). -/
def State.deassertReset (s : State) : State :=
  if s.resetAsserted then { s.clearBrx with resetAsserted := false } else s

end Sys2Proof.Machine
end

