-- ==== Sys2Proof/Machine/BufferReversal.lean ====
section
/-! DEFINITION. REVIP and REVCP (41_buffer_reversal R120 to R138), each the `if` chain of its rule. -/

namespace Sys2Proof.Machine

/-- `InRange(base, n)` (41_buffer_reversal R121, R126). -/
def inRange (p : Config.Platform) (base n : Nat) : Bool := decide (base + n ≤ memSize p)

/-- `Overlap(s, d, n)` (41_buffer_reversal R121, R127). -/
def overlap (src dst n : Nat) : Bool := decide (src < dst + n) && decide (dst < src + n)

/-- `f` holds of every address of `PairSet(base, n)` (41_buffer_reversal R121): the middle byte of an odd length is
not in it. -/
def allPairSet (base n : Nat) (f : Nat → Bool) : Bool := allBelow (n / 2) (fun i => f (base + i) && f (base + n - 1 - i))

/-- `f` holds of every address of `Region(base, n)` (41_buffer_reversal R121). -/
def allRegion (base n : Nat) (f : Nat → Bool) : Bool := allBelow n (fun i => f (base + i))

/-- REVIP's admission pre-check (41_buffer_reversal R128). -/
def revipAdmitted (p : Config.Platform) (src n : Nat) : Bool :=
  allPairSet src n (admits p .read) && allPairSet src n (admits p .write)

/-- REVCP's admission pre-check (41_buffer_reversal R128). -/
def revcpAdmitted (p : Config.Platform) (src dst n : Nat) : Bool :=
  allRegion src n (admits p .read) && allRegion dst n (admits p .write)

/-- REVIP would access a location with side effects (20_memory R55, R57). -/
def revipSideEffect (p : Config.Platform) (src n : Nat) : Bool := !allPairSet src n (fun a => !hasSideEffects p a)

/-- REVCP would access a location with side effects (20_memory R55, R57). -/
def revcpSideEffect (p : Config.Platform) (src dst n : Nat) : Bool :=
  !(allRegion src n (fun a => !hasSideEffects p a) && allRegion dst n (fun a => !hasSideEffects p a))

/-- REVIP (41_buffer_reversal R122). The refusal is 93 U6's (log entry 13). -/
def execRevip (sp : Bool) (s : State) : Result :=
  let n := byteCount s
  let src := srcAddr s
  let w := writtenRegion (.revip sp) s.cur
  if sp = false then finish s w .ok
  else if n < 2 then finish s w .ok
  else if inRange s.platform src n = false then finish s w .range
  else if revipAdmitted s.platform src n = false then finish s w .memFault
  else if revipSideEffect s.platform src n then .refused .sideEffectLocation
  else finish (s.setMem (swapPairs s.mem src n (n / 2))) w .ok

/-- REVCP (41_buffer_reversal R124). The refusal is 93 U6's (log entry 13). -/
def execRevcp (sp dp : Bool) (s : State) : Result :=
  let n := byteCount s
  let src := srcAddr s
  let dst := dstAddr s
  let w := writtenRegion (.revcp sp dp) s.cur
  if sp = false then finish s w .ok
  else if n = 0 then finish s w .ok
  else if dp = false then finish s w .outAbsent
  else if (inRange s.platform src n && inRange s.platform dst n) = false then finish s w .range
  else if overlap src dst n then finish s w .aliased
  else if revcpAdmitted s.platform src dst n = false then finish s w .memFault
  else if revcpSideEffect s.platform src dst n then .refused .sideEffectLocation
  else finish (s.setMem (copyReversed s.mem src dst n n)) w .ok

end Sys2Proof.Machine
end

