-- ==== Sys2Proof/Machine/PermutationNetwork.lean ====
section
/-! DEFINITION. SWAP32, SWAP64, FREV32 and FREV64 (40_permutation_network R100 to R114). -/

namespace Sys2Proof.Machine

/-- Stage 1 of the 32-bit network: swap adjacent bytes (40_permutation_network R101). -/
def stage8of32 (v : BitVec 32) : BitVec 32 := ((v <<< 8) &&& 0xFF00FF00) ||| ((v >>> 8) &&& 0x00FF00FF)

/-- Stage 2 of the 32-bit network: swap the halves (40_permutation_network R101). -/
def stage16of32 (v : BitVec 32) : BitVec 32 := (v <<< 16) ||| ((v >>> 16) &&& 0x0000FFFF)

/-- The 32-bit network (40_permutation_network R101). -/
def network32 (v : BitVec 32) : BitVec 32 := stage16of32 (stage8of32 v)

/-- Stage 1 of the 64-bit network (40_permutation_network R103). -/
def stage8of64 (v : Word) : Word := ((v <<< 8) &&& 0xFF00FF00FF00FF00) ||| ((v >>> 8) &&& 0x00FF00FF00FF00FF)

/-- Stage 2 of the 64-bit network (40_permutation_network R103). -/
def stage16of64 (v : Word) : Word := ((v <<< 16) &&& 0xFFFF0000FFFF0000) ||| ((v >>> 16) &&& 0x0000FFFF0000FFFF)

/-- Stage 3 of the 64-bit network: swap the halves (40_permutation_network R103). -/
def stage32of64 (v : Word) : Word := (v <<< 32) ||| (v >>> 32)

/-- The 64-bit network (40_permutation_network R103). -/
def network64 (v : Word) : Word := stage32of64 (stage16of64 (stage8of64 v))

/-- `r[8i+7:8i] <- b` (40_permutation_network R106, R108). -/
def putByte {w : Nat} (r : BitVec w) (i : Nat) (b : Byte) : BitVec w :=
  (r &&& ~~~(BitVec.ofNat w 0xFF <<< (8 * i))) ||| (b.setWidth w <<< (8 * i))

/-- The first `k` iterations of the byte-index loop for `n` bytes (40_permutation_network R105, R106, R108). -/
def byteLoop {w : Nat} (v : BitVec w) (n : Nat) : Nat → BitVec w
  | 0 => 0
  | k + 1 => putByte (byteLoop v n k) k (byteOf v (n - 1 - k))

/-- A PN command writes its result to DOUT and completes with OK (40_permutation_network R100). -/
def finishPn (s : State) (r : Word) : Result := .next ((s.setDout r).complete .ok)

/-- SWAP32 (40_permutation_network R102). -/
def execSwap32 (s : State) : Result := finishPn s ((network32 (din32 s)).setWidth 64)

/-- SWAP64 (40_permutation_network R104). -/
def execSwap64 (s : State) : Result := finishPn s (network64 (din64 s))

/-- FREV32 (40_permutation_network R106). -/
def execFrev32 (s : State) : Result := finishPn s ((byteLoop (din32 s) 4 4).setWidth 64)

/-- FREV64 (40_permutation_network R108). -/
def execFrev64 (s : State) : Result := finishPn s (byteLoop (din64 s) 8 8)

end Sys2Proof.Machine
end

