-- ==== Sys2Proof/Machine/Dispatch.lean ====
section
/-! DEFINITION. One arm per command: the body that Complete runs once `Legal(cur.cmd)` holds (10_state R43). -/

namespace Sys2Proof.Machine

def exec (i : Instr) (s : State) : Host.Outcome State Fault Refusal :=
  match i with
  | .swap32 => Sys2Proof.Machine.execSwap32 s
  | .swap64 => Sys2Proof.Machine.execSwap64 s
  | .frev32 => Sys2Proof.Machine.execFrev32 s
  | .frev64 => Sys2Proof.Machine.execFrev64 s
  | .revip sp => Sys2Proof.Machine.execRevip sp s
  | .revcp sp dp => Sys2Proof.Machine.execRevcp sp dp s

end Sys2Proof.Machine
end

