-- ==== Sys2Proof/Machine/Sequencer.lean ====
section
/-! DEFINITION. The Complete step (10_state R43) and whose turn it is (00_scope R5, R9; 10_state R40). -/

namespace Sys2Proof.Machine

/-- The sequencer's turn (10_state R43): nothing without a command in flight; an illegal command word completes with
ILLEGAL_CMD; a legal one runs its body. -/
def sequencerTurn (s : State) : Result :=
  if s.status.busy then
    match decode s.cur.cmd with
    | .ok i => exec i s
    | .error _ => .next (s.complete .illegalCmd)
  else .next s

/-- Who moves: the schedule's head; when it is used up, the platform ends a reset, a command in flight completes (weak
fairness, 10_state R40), the host goes on, and then nothing happens. Log entry 3. -/
def nextTurn (s : State) : Turn :=
  match s.turns with
  | t :: _ => t
  | [] =>
    if s.resetAsserted then .resetOff
    else if s.status.busy then .sequencer
    else if s.host.isEmpty then .sequencer
    else .host

/-- The schedule without its head. -/
def State.popTurn (s : State) : State := { s with turns := s.turns.tail }

/-- One turn of one agent (00_scope R5). -/
def runTurn (t : Turn) (s : State) : Result :=
  match t with
  | .host => hostTurn s
  | .sequencer => sequencerTurn s
  | .other x => act s .other x
  | .visible => .next s.makeVisible
  | .resetOn => .next s.assertReset
  | .resetOff => .next s.deassertReset

/-- The command word that a caller of `State.withFetchWord` places. -/
def placedWord (nbits w : Nat) : Word := BitVec.ofNat 64 (w % 2 ^ nbits)

/-- The state right after the Accept of `v` (10_state R41), out of reset, the sequencer next to move. -/
def State.placeCommand (s : State) (v : Word) : State :=
  { s.accept v with resetAsserted := false, turns := .sequencer :: s.turns }

end Sys2Proof.Machine
end

