-- ==== Sys2Proof/Machine/Step.lean ====
section
/-! DEFINITION. One step: the agent whose turn it is moves (00_scope R5). -/

namespace Sys2Proof.Machine

/-- One step of the machine: the turn's agent moves once. A command runs in the sequencer's turn. -/
def step (s : State) : Host.Outcome State Fault Refusal := runTurn (nextTurn s) s.popTurn

/-- `s` with the command word placed where the next step takes it from: BRX fetches nothing (10_state R31), a command
comes in by the Accept of a CMD write (R41), so this is the state right after that Accept with the sequencer next to
move (log entry 4). -/
def State.withFetchWord (s : State) (nbits w : Nat) : State := s.placeCommand (placedWord nbits w)

end Sys2Proof.Machine
end

