-- ==== Sys2Proof/Machine/HostProgram.lean ====
section
/-! DEFINITION. The syntax of commands and host programs (30_encoding R79 to R81) as the accesses they stand for. -/

namespace Sys2Proof.Machine

/-- The registers of the window by name (10_state R21). -/
inductive RegName where
  | id
  | status
  | cmd
  | din
  | dout
  | src
  | dst
  | len
deriving DecidableEq, Repr

/-- The offset of a register (10_state R21). -/
def regOffset : RegName → Nat
  | .id => 0x00
  | .status => 0x08
  | .cmd => 0x10
  | .din => 0x18
  | .dout => 0x20
  | .src => 0x28
  | .dst => 0x30
  | .len => 0x38

/-- `wr REG, v` (30_encoding R80). -/
def wr (p : Config.Platform) (r : RegName) (v : Word) : Action := .busWrite (brxBase p + regOffset r) (bytesOfWord v)

/-- `rd REG` (30_encoding R80). -/
def rd (p : Config.Platform) (r : RegName) : Action := .busRead (brxBase p + regOffset r) 8

/-- `cmd <command>` (30_encoding R80). -/
def cmdLine (p : Config.Platform) (i : Instr) : Action := wr p .cmd (encode i)

/-- `.word v` (30_encoding R79). -/
def wordLine (p : Config.Platform) (v : Word) : Action := wr p .cmd v

/-- The command's mnemonic and operands as 30_encoding R79 writes them. -/
def commandText : Instr → String × String
  | .swap32 => ("SWAP32", "")
  | .swap64 => ("SWAP64", "")
  | .frev32 => ("FREV32", "")
  | .frev64 => ("FREV64", "")
  | .revip sp => ("REVIP", if sp then "buf" else "null")
  | .revcp sp dp =>
    ("REVCP", if sp then (if dp then "in, out" else "in, null") else (if dp then "null, out" else "null, null"))

/-- Every command, in the order of 30_encoding R79. -/
def allCommands : List Instr :=
  [.swap32, .swap64, .frev32, .frev64, .revip true, .revip false, .revcp true true, .revcp true false,
    .revcp false true, .revcp false false]

/-- A mnemonic without regard to case (30_encoding R79). -/
def foldCase (t : String) : List Char := t.toList.map Char.toLower

/-- The CMD value of a command's text, its mnemonic in any case and its operand keywords literal (30_encoding R79). -/
def assemble (mnemonic operands : String) : Option Word :=
  (allCommands.find? (fun i =>
    foldCase (commandText i).1 == foldCase mnemonic && (commandText i).2.toList == operands.toList)).map encode

/-- `swap32 v`, `swap64 v`, `frev32 v`, `frev64 v` (30_encoding R81), for the command `i`. -/
def pnLines (p : Config.Platform) (i : Instr) (v : Word) : List Action :=
  [wr p .din v, cmdLine p i, .poll, rd p .dout]

/-- `revip a, n` (30_encoding R81). -/
def revipLines (p : Config.Platform) (a n : Word) : List Action :=
  [wr p .src a, wr p .len n, cmdLine p (.revip true), .poll]

/-- `revcp a, b, n` (30_encoding R81). -/
def revcpLines (p : Config.Platform) (a b n : Word) : List Action :=
  [wr p .src a, wr p .dst b, wr p .len n, cmdLine p (.revcp true true), .poll]

/-- A host program ends when its last line has run and BUSY = 0 (70_reset_and_hazards R171). -/
def programEnded (s : State) : Bool := s.host.isEmpty && !s.status.busy

end Sys2Proof.Machine
end

