-- ==== Sys2Proof/Safety.lean ====
section
/-! DEFINITION. The terms the statements use: the spec's predicates on addresses and words in plain form, and the
invariant of every state a run reaches. -/

namespace Sys2Proof.Machine

/-- `a` is a byte of `[base, base + n)` (00_scope R19). -/
abbrev InRegion (base n a : Nat) : Prop := base ≤ a ∧ a < base + n

/-- `a` is in `PairSet(base, n)` (41_buffer_reversal R121). -/
def InPairSet (base n a : Nat) : Prop := ∃ i, i < n / 2 ∧ (a = base + i ∨ a = base + n - 1 - i)

/-- `Legal(v)` as 30_encoding R76 writes it. -/
def LegalWord (v : Word) : Prop :=
  (v.extractLsb' 10 54 = 0 ∧ v.extractLsb' 4 4 = 0) ∧
    ((v.extractLsb' 0 4 ∈ ([1, 2, 3, 4] : List (BitVec 4)) ∧ v.extractLsb' 8 2 = 0) ∨
      (v.extractLsb' 0 4 = 5 ∧ v.getLsbD 9 = false) ∨ v.extractLsb' 0 4 = 6)

/-- The STATUS that `complete(err)` leaves (60_exceptions R141). -/
def completedStatus (s : State) (err : ErrCode) : Status :=
  { busy := false, done := true, ovr := s.status.ovr, err := err }

/-- The `N` bytes from `a` upward hold the low `N` bytes of `v`: byte 0 first when `lsbFirst`, last otherwise
(41_buffer_reversal R136: "in either byte order"). -/
def StoresBytes (m : Memory) (a N : Nat) (v : Word) (lsbFirst : Bool) : Prop :=
  ∀ k, k < N → m.read (a + k) = v.extractLsb' (8 * (if lsbFirst then k else N - 1 - k)) 8

/-- The BRX part of the state holds its reset values (10_state R47). -/
structure BrxAtReset (s : State) : Prop where
  status : s.status = ⟨false, false, false, .ok⟩
  cmd : s.cmd = 0
  din : s.din = 0
  dout : s.dout = 0
  src : s.src = 0
  dst : s.dst = 0
  len : s.len = 0
  cur : s.cur = ⟨0, 0, 0, 0, 0⟩

/-- What holds of every state a run reaches. -/
structure Inv (s : State) : Prop where
  /-- The memory is in its canonical form. -/
  memCanonical : s.mem.wf = true
  /-- Nothing is stored past the address space (20_memory R50). -/
  memInside : ∀ a, memSize s.platform ≤ a → s.mem.read a = Memory.fill
  /-- Pending host stores are to addresses that exist (20_memory R50). -/
  unseenInside : ∀ c ∈ s.unseen, c.1 < memSize s.platform
  /-- SRC and DST hold `ADDR_W` bits (10_state R38). -/
  addrRegsFit : s.src.toNat < memSize s.platform ∧ s.dst.toNat < memSize s.platform
  /-- `cur.src` and `cur.dst` hold `ADDR_W` bits (10_state R35). -/
  latchedFit : s.cur.src.toNat < memSize s.platform ∧ s.cur.dst.toNat < memSize s.platform
  /-- DONE and BUSY are never both 1 (10_state R30). -/
  notBusyAndDone : ¬(s.status.busy = true ∧ s.status.done = true)
  /-- ERR is 0 while BUSY = 1 (10_state R33). -/
  errOkWhileBusy : s.status.busy = true → s.status.err = .ok
  /-- Until the first Accept after reset, STATUS, CMD and DOUT hold their reset values (10_state R30, R34, R37, R47). -/
  idleSinceReset : s.status.busy = false → s.status.done = false →
    s.status.ovr = false ∧ s.status.err = .ok ∧ s.cmd = 0 ∧ s.dout = 0
  /-- CMD holds the command in flight (10_state R34, R42). -/
  cmdInFlight : s.status.busy = true → s.cur.cmd = s.cmd
  /-- A race is a race with a command in flight that owns bytes (20_memory R58). -/
  racedOwns : s.raced = true → ∃ a, owns s a = true
  /-- No pending host store is to a byte of the command in flight: those raced at Accept (20_memory R59). -/
  unseenNotOwned : ∀ c ∈ s.unseen, owns s c.1 = false
  /-- While reset is asserted every piece of BRX state holds its reset value (70_reset_and_hazards R160). -/
  heldInReset : s.resetAsserted = true → BrxAtReset s

end Sys2Proof.Machine
end

