-- ==== Sys2Proof/Certificates/Slice0/Obligations.lean ====
section
/-! DEFINITION. The statements for the provers, from the numbered rules of the spec. -/

open Sys2Proof Sys2Proof.Machine

/-! ### Reset values and the register window -/

/-- 10_state R47: after reset every register reads as the table says, and `cur` is all zero, on every platform. -/
def Obligations.ResetGivesEveryRegisterItsValue : Prop :=
  ∀ p : Config.Platform,
    readReg (State.resetOn p) 0x00 = (BitVec.ofNat 64 (addrW p) <<< 40) ||| (1#64 <<< 32) ||| 0x42525831#64 ∧
    (State.resetOn p).status = ⟨false, false, false, .ok⟩ ∧ readReg (State.resetOn p) 0x08 = 0 ∧
    readReg (State.resetOn p) 0x10 = 0 ∧ readReg (State.resetOn p) 0x18 = 0 ∧ readReg (State.resetOn p) 0x20 = 0 ∧
    readReg (State.resetOn p) 0x28 = 0 ∧ readReg (State.resetOn p) 0x30 = 0 ∧ readReg (State.resetOn p) 0x38 = 0 ∧
    (State.resetOn p).cur = ⟨0, 0, 0, 0, 0⟩ ∧ State.reset = State.resetOn State.reset.platform

/-- 10_state R27: ID reads its constant in every state, and its value in the reference configuration. -/
def Obligations.IdReadsItsConstantAlways : Prop :=
  ∀ s : State,
    readReg s 0x00 = (BitVec.ofNat 64 (addrW s.platform) <<< 40) ||| (1#64 <<< 32) ||| 0x42525831#64 ∧
    (addrW s.platform = 64 → readReg s 0x00 = 0x0000400142525831#64)

/-- 10_state R28, 60_exceptions R140: where each field of STATUS reads, and the code of each outcome. -/
def Obligations.StatusReadsItsFieldsInPlace : Prop :=
  ∀ s : State,
    (readReg s 0x08).getLsbD 0 = s.status.busy ∧ (readReg s 0x08).getLsbD 1 = s.status.done ∧
    (readReg s 0x08).getLsbD 2 = s.status.ovr ∧ (readReg s 0x08).getLsbD 3 = false ∧
    (readReg s 0x08).extractLsb' 8 56 = 0 ∧
    (s.status.err = .ok → (readReg s 0x08).extractLsb' 4 4 = 0#4) ∧
    (s.status.err = .illegalCmd → (readReg s 0x08).extractLsb' 4 4 = 1#4) ∧
    (s.status.err = .outAbsent → (readReg s 0x08).extractLsb' 4 4 = 2#4) ∧
    (s.status.err = .range → (readReg s 0x08).extractLsb' 4 4 = 3#4) ∧
    (s.status.err = .aliased → (readReg s 0x08).extractLsb' 4 4 = 4#4) ∧
    (s.status.err = .memFault → (readReg s 0x08).extractLsb' 4 4 = 5#4)

/-- 10_state R23: an aligned 64-bit read of a reserved offset gives eight zero bytes, such a write is ignored. -/
def Obligations.ReservedOffsetsReadZeroIgnoreWrites : Prop :=
  ∀ (s : State) (off : Nat), 0x40 ≤ off → off ≤ 0xF8 → off % 8 = 0 →
    busRead s (brxBase s.platform + off) 8 = s.setReply (.data [0, 0, 0, 0, 0, 0, 0, 0]) ∧
    ∀ v : Word, busWrite s (brxBase s.platform + off) (bytesOfWord v) = s.setReply .taken

/-- 10_state R24: a write to ID, STATUS or DOUT changes no state and raises no error. -/
def Obligations.ReadOnlyRegisterWritesIgnored : Prop :=
  ∀ (s : State) (off : Nat) (v : Word), off = 0x00 ∨ off = 0x08 ∨ off = 0x20 →
    busWrite s (brxBase s.platform + off) (bytesOfWord v) = s.setReply .taken

/-- 10_state R22: an access to the window is taken exactly when it is 64 bits wide at an offset that is a multiple of 8;
any other access that reaches a byte of the window (one that crosses its edge too: log entry 15) gets the bus error,
returns no data and changes no state. -/
def Obligations.OnlyAlignedFullAccessesAreTaken : Prop :=
  ∀ (s : State) (addr bytes : Nat),
    (∃ k, k < bytes ∧ brxBase s.platform ≤ addr + k ∧ addr + k < brxBase s.platform + 0x100) →
    (bytes = 8 ∧ brxBase s.platform ≤ addr ∧ (addr - brxBase s.platform) % 8 = 0 →
      (∃ d, d.length = 8 ∧ busRead s addr bytes = s.setReply (.data d)) ∧
      ∀ data : List Byte, data.length = bytes → (busWrite s addr data).reply = .taken) ∧
    (¬(bytes = 8 ∧ brxBase s.platform ≤ addr ∧ (addr - brxBase s.platform) % 8 = 0) →
      busRead s addr bytes = s.setReply .busError ∧
      ∀ data : List Byte, data.length = bytes → busWrite s addr data = s.setReply .busError)

/-- 10_state R21, R27, R28, R34, R36 to R39: what a read of each register returns, without a side effect. -/
def Obligations.ReadsReturnTheRegisters : Prop :=
  ∀ s : State,
    busRead s (brxBase s.platform + 0x00) 8 = s.setReply (.data (bytesOfWord
      ((BitVec.ofNat 64 (addrW s.platform) <<< 40) ||| (1#64 <<< 32) ||| 0x42525831#64))) ∧
    (∃ v : Word, busRead s (brxBase s.platform + 0x08) 8 = s.setReply (.data (bytesOfWord v)) ∧
      v.getLsbD 0 = s.status.busy ∧ v.getLsbD 1 = s.status.done ∧ v.getLsbD 2 = s.status.ovr ∧ v.getLsbD 3 = false ∧
      v.extractLsb' 4 4 = BitVec.ofNat 4 (errCode s.status.err) ∧ v.extractLsb' 8 56 = 0) ∧
    busRead s (brxBase s.platform + 0x10) 8 = s.setReply (.data (bytesOfWord s.cmd)) ∧
    busRead s (brxBase s.platform + 0x18) 8 = s.setReply (.data (bytesOfWord s.din)) ∧
    busRead s (brxBase s.platform + 0x20) 8 = s.setReply (.data (bytesOfWord s.dout)) ∧
    busRead s (brxBase s.platform + 0x38) 8 = s.setReply (.data (bytesOfWord s.len)) ∧
    (∃ v : Word, busRead s (brxBase s.platform + 0x28) 8 = s.setReply (.data (bytesOfWord v)) ∧
      ∀ k, v.getLsbD k = (decide (k < addrW s.platform) && s.src.getLsbD k)) ∧
    (∃ v : Word, busRead s (brxBase s.platform + 0x30) 8 = s.setReply (.data (bytesOfWord v)) ∧
      ∀ k, v.getLsbD k = (decide (k < addrW s.platform) && s.dst.getLsbD k))

/-- 10_state R25: byte `k` of a register value is lane `k` of the bus, both ways. -/
def Obligations.RegisterBytesAreLittleEndian : Prop :=
  ∀ v : Word, (bytesOfWord v).length = 8 ∧ (∀ k, k < 8 → (bytesOfWord v)[k]? = some (v.extractLsb' (8 * k) 8)) ∧
    wordOfBytes (bytesOfWord v) = v

/-- 10_state R36, R38, R39, R48: a write of DIN, SRC, DST or LEN, busy or not, changes that register at once and nothing
else; SRC and DST take the low `ADDR_W` bits. -/
def Obligations.OperandWritesChangeOnlyTheirRegister : Prop :=
  ∀ (s : State) (v : Word), s.resetAsserted = false →
    busWrite s (brxBase s.platform + 0x18) (bytesOfWord v) = { s with din := v, reply := .taken } ∧
    busWrite s (brxBase s.platform + 0x38) (bytesOfWord v) = { s with len := v, reply := .taken } ∧
    ∃ a : Word, (∀ k, a.getLsbD k = (decide (k < addrW s.platform) && v.getLsbD k)) ∧
      busWrite s (brxBase s.platform + 0x28) (bytesOfWord v) = { s with src := a, reply := .taken } ∧
      busWrite s (brxBase s.platform + 0x30) (bytesOfWord v) = { s with dst := a, reply := .taken }

/-! ### Accept and the rejected write -/

/-- 10_state R41: a CMD write while BUSY = 0 latches every operand and sets STATUS to 1; the operand registers and DOUT
stay; and where no pending host store (log entry 11) is to a byte of the command, nothing else changes. -/
def Obligations.AcceptLatchesTheOperands : Prop :=
  ∀ (s t : State) (v : Word), s.status.busy = false → s.resetAsserted = false →
    t = busWrite s (brxBase s.platform + 0x10) (bytesOfWord v) →
    t.cmd = v ∧
    t.cur = { cmd := v, din := s.din, src := BitVec.ofNat 64 (s.src.toNat % 2 ^ addrW s.platform),
              dst := BitVec.ofNat 64 (s.dst.toNat % 2 ^ addrW s.platform), len := s.len } ∧
    t.status = ⟨true, false, false, .ok⟩ ∧ t.din = s.din ∧ t.dout = s.dout ∧ t.src = s.src ∧ t.dst = s.dst ∧
    t.len = s.len ∧ t.platform = s.platform ∧ t.resetAsserted = s.resetAsserted ∧ t.host = s.host ∧
    t.turns = s.turns ∧ t.reply = .taken ∧
    ((∀ c ∈ s.unseen, owns t c.1 = false) →
      t.mem = s.mem ∧ t.raced = false ∧ t.unseen = s.unseen ∧ t.draws = s.draws)

/-- 20_memory R59 with R58 (log entries 11 and 23): host stores that are not visible at Accept and are to bytes of the
command race with it, and the other pending stores go on waiting. In memory, no other byte changes; one that the command
only reads takes the newest of its stores; one that it writes takes one of them or none, and where a single store races,
a free value says whether it is lost. -/
def Obligations.StoresUnseenAtAcceptRace : Prop :=
  ∀ (s t : State) (v : Word), s.status.busy = false → s.resetAsserted = false →
    t = busWrite s (brxBase s.platform + 0x10) (bytesOfWord v) → (∃ c ∈ s.unseen, owns t c.1 = true) →
    t.raced = true ∧ t.unseen = s.unseen.filter (fun c => !owns t c.1) ∧
    t.draws = s.draws + (s.unseen.filter (fun c => owns t c.1)).length ∧
    (s.mem.wf = true → t.mem.wf = true ∧
      (∀ a, (∀ c ∈ s.unseen, owns t c.1 = true → c.1 ≠ a) → t.mem.read a = s.mem.read a) ∧
      (∀ a, owns t a = true → ownsWritten t a = false →
        t.mem.read a = (pendingByte s.unseen a).getD (s.mem.read a)) ∧
      (∀ a, ownsWritten t a = true →
        t.mem.read a = s.mem.read a ∨ ∃ c ∈ s.unseen, c.1 = a ∧ t.mem.read a = c.2) ∧
      (∀ c, s.unseen.filter (fun d => owns t d.1) = [c] → ownsWritten t c.1 = true →
        t.mem.read c.1 = if Config.writeLost s.draws = true then s.mem.read c.1 else c.2))

/-- 10_state R42: a CMD write while BUSY = 1 sets OVR and does nothing else. -/
def Obligations.CommandWriteWhileBusyOnlySetsOvr : Prop :=
  ∀ (s : State) (v : Word), s.status.busy = true → s.resetAsserted = false →
    busWrite s (brxBase s.platform + 0x10) (bytesOfWord v) =
      { s with status := { s.status with ovr := true }, reply := .taken }

/-- 60_exceptions R146: a rejected write and then the Complete leave OVR set; the Complete and then the write is an
Accept. -/
def Obligations.RejectedWriteAndCompleteInEitherOrder : Prop :=
  ∀ (s t : State) (v : Word), s.status.busy = true → s.resetAsserted = false →
    (sequencerTurn (busWrite s (brxBase s.platform + 0x10) (bytesOfWord v)) = .next t →
      t.status.ovr = true ∧ t.status.busy = false ∧ t.cmd = s.cmd) ∧
    (sequencerTurn s = .next t →
      (busWrite t (brxBase t.platform + 0x10) (bytesOfWord v)).status = ⟨true, false, false, .ok⟩ ∧
      (busWrite t (brxBase t.platform + 0x10) (bytesOfWord v)).cur.cmd = v)

/-! ### Encoding -/

/-- 30_encoding R76: the decoder takes exactly the legal words, and in the sequencer's turn an illegal one completes with
ILLEGAL_CMD, changing STATUS only. -/
def Obligations.OnlyLegalWordsRunOthersCompleteIllegal : Prop :=
  (∀ v : Word, (∃ i, decode v = .ok i) ↔ LegalWord v) ∧
  ∀ s : State, s.status.busy = true → ¬LegalWord s.cur.cmd →
    sequencerTurn s = .next { s with status := completedStatus s .illegalCmd }

/-- 30_encoding R75: a word matches a row's mask and match exactly when it decodes to that row's command, and there are
exactly ten legal words. -/
def Obligations.RowsOfTheOpcodeMapDecode : Prop :=
  ∀ v : Word,
    (v &&& 0xFFFFFFFFFFFFFFFF#64 = 1#64 ↔ decode v = .ok .swap32) ∧
    (v &&& 0xFFFFFFFFFFFFFFFF#64 = 2#64 ↔ decode v = .ok .swap64) ∧
    (v &&& 0xFFFFFFFFFFFFFFFF#64 = 3#64 ↔ decode v = .ok .frev32) ∧
    (v &&& 0xFFFFFFFFFFFFFFFF#64 = 4#64 ↔ decode v = .ok .frev64) ∧
    (v &&& 0xFFFFFFFFFFFFFEFF#64 = 5#64 ↔ decode v = .ok (.revip (v.getLsbD 8))) ∧
    (v &&& 0xFFFFFFFFFFFFFCFF#64 = 6#64 ↔ decode v = .ok (.revcp (v.getLsbD 8) (v.getLsbD 9))) ∧
    ((∃ i, decode v = .ok i) ↔
      v ∈ ([0x001, 0x002, 0x003, 0x004, 0x005, 0x105, 0x006, 0x106, 0x206, 0x306] : List Word))

/-- 30_encoding R75, R79: decode and encode are inverse, on every word and every command with every operand bit. -/
def Obligations.DecodeAndEncodeAgree : Prop :=
  ∀ (v : Word) (i : Instr), decode v = .ok i ↔ v = encode i

/-- 30_encoding R77, R79: a few words written out from the spec's tables. -/
def Obligations.TableWordsDecodeAsWritten : Prop :=
  decodeTableWord 64 0x001 = some .swap32 ∧ decodeTableWord 64 0x004 = some .frev64 ∧
  decodeTableWord 64 0x105 = some (.revip true) ∧ decodeTableWord 64 0x005 = some (.revip false) ∧
  decodeTableWord 64 0x206 = some (.revcp false true) ∧ decodeTableWord 64 0x000 = none ∧
  decodeTableWord 64 0x305 = none ∧ decodeTableWord 64 0x101 = none ∧ decodeTableWord 64 0x011 = none ∧
  decodeTableWord 64 0x401 = none ∧ decodeTableWord 64 0x100000001 = none

/-- 30_encoding R79: each command's text, its mnemonic in any case, assembles to its CMD value; the texts of the rule, in
small letters. -/
def Obligations.CommandTextAssemblesToItsWord : Prop :=
  (∀ (i : Instr) (m : String), m.toList.map Char.toLower = (commandText i).1.toList.map Char.toLower →
    assemble m (commandText i).2 = some (encode i)) ∧
  assemble "swap32" "" = some 0x001 ∧ assemble "swap64" "" = some 0x002 ∧ assemble "frev32" "" = some 0x003 ∧
  assemble "frev64" "" = some 0x004 ∧ assemble "revip" "buf" = some 0x105 ∧ assemble "revip" "null" = some 0x005 ∧
  assemble "revcp" "in, out" = some 0x306 ∧ assemble "revcp" "in, null" = some 0x106 ∧
  assemble "revcp" "null, out" = some 0x206 ∧ assemble "revcp" "null, null" = some 0x006

/-! ### The permutation network -/

/-- 40_permutation_network R102: SWAP32, whole: its one word, its result, its flags, and nothing else changed. -/
def Obligations.SwapThirtyTwoWritesTheTwoStageResult : Prop :=
  (∀ w : Word, decode w = .ok .swap32 ↔ w = 0x001) ∧
  ∀ (s : State) (v s1 s2 : BitVec 32), v = s.cur.din.extractLsb' 0 32 →
    s1 = ((v <<< 8) &&& 0xFF00FF00#32) ||| ((v >>> 8) &&& 0x00FF00FF#32) →
    s2 = (s1 <<< 16) ||| ((s1 >>> 16) &&& 0x0000FFFF#32) →
    exec .swap32 s = .next { s with dout := s2.setWidth 64, status := completedStatus s .ok }

/-- 40_permutation_network R104: SWAP64, whole. -/
def Obligations.SwapSixtyFourWritesTheThreeStageResult : Prop :=
  (∀ w : Word, decode w = .ok .swap64 ↔ w = 0x002) ∧
  ∀ (s : State) (v s1 s2 s3 : Word), v = s.cur.din →
    s1 = ((v <<< 8) &&& 0xFF00FF00FF00FF00#64) ||| ((v >>> 8) &&& 0x00FF00FF00FF00FF#64) →
    s2 = ((s1 <<< 16) &&& 0xFFFF0000FFFF0000#64) ||| ((s1 >>> 16) &&& 0x0000FFFF0000FFFF#64) →
    s3 = (s2 <<< 32) ||| (s2 >>> 32) →
    exec .swap64 s = .next { s with dout := s3, status := completedStatus s .ok }

/-- 40_permutation_network R106: FREV32, whole: byte `i` of the result is byte `3 - i` of the operand. -/
def Obligations.FloatReverseThirtyTwoMovesBytesByIndex : Prop :=
  (∀ w : Word, decode w = .ok .frev32 ↔ w = 0x003) ∧
  ∀ s : State, ∃ r : BitVec 32,
    (∀ i, i < 4 → r.extractLsb' (8 * i) 8 = (s.cur.din.extractLsb' 0 32).extractLsb' (8 * (3 - i)) 8) ∧
    exec .frev32 s = .next { s with dout := r.setWidth 64, status := completedStatus s .ok }

/-- 40_permutation_network R108: FREV64, whole: byte `i` of the result is byte `7 - i` of the operand. -/
def Obligations.FloatReverseSixtyFourMovesBytesByIndex : Prop :=
  (∀ w : Word, decode w = .ok .frev64 ↔ w = 0x004) ∧
  ∀ s : State, ∃ r : Word,
    (∀ i, i < 8 → r.extractLsb' (8 * i) 8 = s.cur.din.extractLsb' (8 * (7 - i)) 8) ∧
    exec .frev64 s = .next { s with dout := r, status := completedStatus s .ok }

/-- 40_permutation_network R109: the stage networks compute byte reversal. -/
def Obligations.StageNetworksReverseBytes : Prop :=
  (∀ v : BitVec 32, ∀ k, k < 4 → (network32 v).extractLsb' (8 * k) 8 = v.extractLsb' (8 * (3 - k)) 8) ∧
  ∀ v : Word, ∀ k, k < 8 → (network64 v).extractLsb' (8 * k) 8 = v.extractLsb' (8 * (7 - k)) 8

/-- 40_permutation_network R110: the integer and the float command of a width do the same. -/
def Obligations.IntegerAndFloatCommandsAgree : Prop :=
  ∀ s : State, exec .swap32 s = exec .frev32 s ∧ exec .swap64 s = exec .frev64 s

/-- 40_permutation_network R111: run a PN command, write DOUT to DIN, run it again: the second DOUT is the first DIN,
restricted to the command's width. -/
def Obligations.PermutationCommandTwiceGivesTheOperandBack : Prop :=
  ∀ (s : State) (i : Instr), i ∈ ([.swap32, .swap64, .frev32, .frev64] : List Instr) →
    ∃ t w : State, exec i s = .next t ∧ exec i ((writeReg t 0x18 t.dout).accept (encode i)) = .next w ∧
      w.status.err = .ok ∧
      w.dout = if i = .swap32 ∨ i = .frev32 then (s.cur.din.extractLsb' 0 32).setWidth 64 else s.cur.din

/-! ### The buffer reversal engine -/

/-- 41_buffer_reversal R122, R123: REVIP, whole, without a race and away from locations with side effects: the no-op
guards, RANGE, MEM_FAULT, and the reversal; STATUS by `complete`; nothing else changed. -/
def Obligations.RevipCompletesByItsRule : Prop :=
  (∀ w : Word, decode w = .ok (.revip true) ↔ w = 0x105) ∧ (∀ w : Word, decode w = .ok (.revip false) ↔ w = 0x005) ∧
  ∀ (s : State) (sp : Bool) (n src : Nat), n = s.cur.len.toNat → src = s.cur.src.toNat →
    s.mem.wf = true → s.raced = false →
    (sp = true → 2 ≤ n → src + n ≤ 2 ^ addrW s.platform →
      (∀ a, InPairSet src n a → admits s.platform .read a = true ∧ admits s.platform .write a = true) →
      ∀ a, InPairSet src n a → hasSideEffects s.platform a = false) →
    ∃ (m : Memory) (err : ErrCode),
      exec (.revip sp) s = .next { s with mem := m, status := completedStatus s err } ∧
      (sp = false ∨ n < 2 → err = .ok ∧ m = s.mem) ∧
      (sp = true → 2 ≤ n → 2 ^ addrW s.platform < src + n → err = .range ∧ m = s.mem) ∧
      (sp = true → 2 ≤ n → src + n ≤ 2 ^ addrW s.platform →
        (∃ a, InPairSet src n a ∧ (admits s.platform .read a = false ∨ admits s.platform .write a = false)) →
        err = .memFault ∧ m = s.mem) ∧
      (sp = true → 2 ≤ n → src + n ≤ 2 ^ addrW s.platform →
        (∀ a, InPairSet src n a → admits s.platform .read a = true ∧ admits s.platform .write a = true) →
        err = .ok ∧ m.wf = true ∧ (∀ k, k < n → m.read (src + k) = s.mem.read (src + n - 1 - k)) ∧
        ∀ a, ¬InRegion src n a → m.read a = s.mem.read a)

/-- 20_memory R57, 93 U6 (log entry 13): REVIP about to access a location with side effects is refused by name. -/
def Obligations.RevipRefusesSideEffectLocations : Prop :=
  ∀ (s : State) (n src : Nat), n = s.cur.len.toNat → src = s.cur.src.toNat → 2 ≤ n →
    src + n ≤ 2 ^ addrW s.platform →
    (∀ a, InPairSet src n a → admits s.platform .read a = true ∧ admits s.platform .write a = true) →
    (∃ a, InPairSet src n a ∧ hasSideEffects s.platform a = true) →
    exec (.revip true) s = .refused .sideEffectLocation

/-- 41_buffer_reversal R124, R125: REVCP, whole, without a race and away from locations with side effects: the no-op
guards, OUT_ABSENT, RANGE, ALIAS, MEM_FAULT, and the reversed copy; STATUS by `complete`; nothing else changed. -/
def Obligations.RevcpCompletesByItsRule : Prop :=
  (∀ (w : Word) (sp dp : Bool), decode w = .ok (.revcp sp dp) ↔
    w = 0x006 ||| (if sp then 0x100 else 0) ||| (if dp then 0x200 else 0)) ∧
  ∀ (s : State) (sp dp : Bool) (n src dst size : Nat), n = s.cur.len.toNat → src = s.cur.src.toNat →
    dst = s.cur.dst.toNat → size = 2 ^ addrW s.platform → s.mem.wf = true → s.raced = false →
    (sp = true → dp = true → 1 ≤ n → src + n ≤ size → dst + n ≤ size → ¬(src < dst + n ∧ dst < src + n) →
      (∀ a, InRegion src n a → admits s.platform .read a = true) →
      (∀ a, InRegion dst n a → admits s.platform .write a = true) →
      ∀ a, InRegion src n a ∨ InRegion dst n a → hasSideEffects s.platform a = false) →
    ∃ (m : Memory) (err : ErrCode),
      exec (.revcp sp dp) s = .next { s with mem := m, status := completedStatus s err } ∧
      (sp = false ∨ n = 0 → err = .ok ∧ m = s.mem) ∧
      (sp = true → 1 ≤ n → dp = false → err = .outAbsent ∧ m = s.mem) ∧
      (sp = true → 1 ≤ n → dp = true → size < src + n ∨ size < dst + n → err = .range ∧ m = s.mem) ∧
      (sp = true → 1 ≤ n → dp = true → src + n ≤ size → dst + n ≤ size → src < dst + n ∧ dst < src + n →
        err = .aliased ∧ m = s.mem) ∧
      (sp = true → 1 ≤ n → dp = true → src + n ≤ size → dst + n ≤ size → ¬(src < dst + n ∧ dst < src + n) →
        (∃ a, (InRegion src n a ∧ admits s.platform .read a = false) ∨
          (InRegion dst n a ∧ admits s.platform .write a = false)) →
        err = .memFault ∧ m = s.mem) ∧
      (sp = true → 1 ≤ n → dp = true → src + n ≤ size → dst + n ≤ size → ¬(src < dst + n ∧ dst < src + n) →
        (∀ a, InRegion src n a → admits s.platform .read a = true) →
        (∀ a, InRegion dst n a → admits s.platform .write a = true) →
        err = .ok ∧ m.wf = true ∧ (∀ i, i < n → m.read (dst + i) = s.mem.read (src + n - 1 - i)) ∧
        ∀ a, ¬InRegion dst n a → m.read a = s.mem.read a)

/-- 20_memory R57, 93 U6 (log entry 13): REVCP about to access a location with side effects is refused by name. -/
def Obligations.RevcpRefusesSideEffectLocations : Prop :=
  ∀ (s : State) (n src dst : Nat), n = s.cur.len.toNat → src = s.cur.src.toNat → dst = s.cur.dst.toNat → 1 ≤ n →
    src + n ≤ 2 ^ addrW s.platform → dst + n ≤ 2 ^ addrW s.platform → ¬(src < dst + n ∧ dst < src + n) →
    (∀ a, InRegion src n a → admits s.platform .read a = true) →
    (∀ a, InRegion dst n a → admits s.platform .write a = true) →
    (∃ a, (InRegion src n a ∨ InRegion dst n a) ∧ hasSideEffects s.platform a = true) →
    exec (.revcp true true) s = .refused .sideEffectLocation

/-- 41_buffer_reversal R131: without a race, no REVCP changes a byte of its input region. -/
def Obligations.RevcpNeverWritesItsInput : Prop :=
  ∀ (s t : State) (sp dp : Bool), s.mem.wf = true → s.raced = false → exec (.revcp sp dp) s = .next t →
    ∀ a, InRegion s.cur.src.toNat s.cur.len.toNat a → t.mem.read a = s.mem.read a

/-- 41_buffer_reversal R120: raced or not, a GBRE command changes no byte outside its written region, and besides memory
it changes STATUS by `complete` and the model's race bookkeeping (log entry 5) only: not DIN, DOUT or any other register. -/
def Obligations.BufferCommandsWriteOnlyTheirRegion : Prop :=
  ∀ (s t : State) (sp dp : Bool), s.mem.wf = true →
    (exec (.revip sp) s = .next t →
      t = { s with mem := t.mem, status := completedStatus s t.status.err, draws := t.draws, raced := t.raced } ∧
      ∀ a, ¬InRegion s.cur.src.toNat s.cur.len.toNat a → t.mem.read a = s.mem.read a) ∧
    (exec (.revcp sp dp) s = .next t →
      t = { s with mem := t.mem, status := completedStatus s t.status.err, draws := t.draws, raced := t.raced } ∧
      ∀ a, ¬InRegion s.cur.dst.toNat s.cur.len.toNat a → t.mem.read a = s.mem.read a)

/-- 41_buffer_reversal R120, R122, R124: REVIP reads neither DIN, DOUT, `cur.din` nor `cur.dst`, and REVCP neither DIN,
DOUT nor `cur.din`: with other values there, the outcome differs there and nowhere else. -/
def Obligations.BufferCommandsIgnoreTheDataRegisters : Prop :=
  ∀ (s t : State) (sp dp : Bool) (x y z w : Word),
    (exec (.revip sp) s = .next t →
      exec (.revip sp) { s with din := x, dout := y, cur := { s.cur with din := z, dst := w } } =
        .next { t with din := x, dout := y, cur := { t.cur with din := z, dst := w } }) ∧
    (exec (.revcp sp dp) s = .next t →
      exec (.revcp sp dp) { s with din := x, dout := y, cur := { s.cur with din := z } } =
        .next { t with din := x, dout := y, cur := { t.cur with din := z } })

/-- 41_buffer_reversal R127: the overlap test is sharing a byte; equal bases overlap, regions that touch do not. -/
def Obligations.OverlapIsSharingAByte : Prop :=
  ∀ src dst n : Nat, 1 ≤ n →
    (overlap src dst n = true ↔ src < dst + n ∧ dst < src + n) ∧
    (overlap src dst n = true ↔ ∃ a, InRegion src n a ∧ InRegion dst n a) ∧
    overlap src src n = true ∧ overlap src (src + n) n = false ∧ overlap (dst + n) dst n = false

/-- 41_buffer_reversal R135: two REVIP with the same operands that complete with OK, with no write to the region
between: the region is as before the first; and all of memory is, if nothing at all was written between. -/
def Obligations.RevipTwiceRestoresMemory : Prop :=
  ∀ (s t u w : State) (sp : Bool), s.mem.wf = true → u.mem.wf = true → s.raced = false → u.raced = false →
    exec (.revip sp) s = .next t → t.status.err = .ok →
    (∀ a, InRegion s.cur.src.toNat s.cur.len.toNat a → u.mem.read a = t.mem.read a) →
    u.cur.src = s.cur.src → u.cur.len = s.cur.len → exec (.revip sp) u = .next w → w.status.err = .ok →
    (∀ a, InRegion s.cur.src.toNat s.cur.len.toNat a → w.mem.read a = s.mem.read a) ∧ (u.mem = t.mem → w.mem = s.mem)

/-- 41_buffer_reversal R136: reversing the 4 or 8 bytes of a pattern in memory, in place or by copy, gives the bytes of
the PN command's DOUT, in either byte order. -/
def Obligations.BufferReversalAgreesWithTheNetwork : Prop :=
  ∀ (lsbFirst : Bool) (N : Nat) (i g : Instr) (s t q r : State),
    (N, i) ∈ ([(4, .swap32), (4, .frev32), (8, .swap64), (8, .frev64)] : List (Nat × Instr)) →
    g = .revip true ∨ g = .revcp true true → s.mem.wf = true → s.raced = false → s.cur.len.toNat = N →
    exec g s = .next t → t.status.err = .ok → exec i q = .next r →
    StoresBytes s.mem s.cur.src.toNat N q.cur.din lsbFirst →
    StoresBytes t.mem (if g = .revip true then s.cur.src.toNat else s.cur.dst.toNat) N r.dout lsbFirst

/-! ### Completion, errors and their order -/

/-- 60_exceptions R145: the first of the outcomes that apply, in the rule's order, from the bits of the command word. -/
def Obligations.FirstApplicableOutcomeIsReported : Prop :=
  ∀ (s : State) (v : Word) (n src dst size : Nat), s.status.busy = true → v = s.cur.cmd →
    n = s.cur.len.toNat → src = s.cur.src.toNat → dst = s.cur.dst.toNat → size = 2 ^ addrW s.platform →
    (¬LegalWord v → ∃ t, sequencerTurn s = .next t ∧ t.status.err = .illegalCmd) ∧
    (LegalWord v → v.extractLsb' 0 4 = 5 →
      (v.getLsbD 8 = false ∨ n < 2 → ∃ t, sequencerTurn s = .next t ∧ t.status.err = .ok) ∧
      (v.getLsbD 8 = true → 2 ≤ n →
        (size < src + n → ∃ t, sequencerTurn s = .next t ∧ t.status.err = .range) ∧
        (src + n ≤ size →
          (∃ a, InPairSet src n a ∧ (admits s.platform .read a = false ∨ admits s.platform .write a = false)) →
          ∃ t, sequencerTurn s = .next t ∧ t.status.err = .memFault))) ∧
    (LegalWord v → v.extractLsb' 0 4 = 6 →
      (v.getLsbD 8 = false ∨ n = 0 → ∃ t, sequencerTurn s = .next t ∧ t.status.err = .ok) ∧
      (v.getLsbD 8 = true → 1 ≤ n →
        (v.getLsbD 9 = false → ∃ t, sequencerTurn s = .next t ∧ t.status.err = .outAbsent) ∧
        (v.getLsbD 9 = true →
          (size < src + n ∨ size < dst + n → ∃ t, sequencerTurn s = .next t ∧ t.status.err = .range) ∧
          (src + n ≤ size → dst + n ≤ size →
            (src < dst + n ∧ dst < src + n → ∃ t, sequencerTurn s = .next t ∧ t.status.err = .aliased) ∧
            (¬(src < dst + n ∧ dst < src + n) →
              (∃ a, (InRegion src n a ∧ admits s.platform .read a = false) ∨
                (InRegion dst n a ∧ admits s.platform .write a = false)) →
              ∃ t, sequencerTurn s = .next t ∧ t.status.err = .memFault)))))

/-- 60_exceptions R141: `complete` sets ERR, clears BUSY, sets DONE and keeps OVR; and the Complete step of any command
word does so, and changes no operand register, not CMD and not `cur`. -/
def Obligations.CompleteEndsTheCommandInFlight : Prop :=
  (∀ (s : State) (err : ErrCode),
    s.complete err = { s with status := { busy := false, done := true, ovr := s.status.ovr, err := err } }) ∧
  ∀ s t : State, s.status.busy = true → sequencerTurn s = .next t →
    t.status.busy = false ∧ t.status.done = true ∧ t.status.ovr = s.status.ovr ∧
    t = { s with status := t.status, dout := t.dout, mem := t.mem, draws := t.draws, raced := t.raced }

/-- 60_exceptions R140, R144: without a race, a completion with an error changes STATUS and nothing else. -/
def Obligations.ErrorCompletionsChangeOnlyStatus : Prop :=
  ∀ s t : State, s.status.busy = true → s.raced = false → sequencerTurn s = .next t → t.status.err ≠ .ok →
    t = { s with status := completedStatus s t.status.err }

/-! ### Races and visibility -/

/-- 20_memory R58: a load of a byte of the command in flight, by the host or another master, returns a free byte and
marks the race; a store to one marks it too, and lands or, in the written region, may be lost (free
values: log entry 5; that it lands at once: log entry 23). -/
def Obligations.AccessesToOwnedBytesRace : Prop :=
  ∀ (s : State) (who : Master) (a : Nat) (b : Byte), a < 2 ^ addrW s.platform → hasSideEffects s.platform a = false →
    owns s a = true →
    loadByte s who a =
      .next { s with reply := .data [Config.anyByte s.draws a], draws := s.draws + 1, raced := true } ∧
    storeByte s who a b =
      .next { s with
        mem := if ownsWritten s a = true ∧ Config.writeLost s.draws = true then s.mem else s.mem.write a b
        draws := s.draws + 1, raced := true, reply := .taken }

/-- 20_memory R58, R61 (log entries 6 and 7): a raced GBRE command, whatever its outcome, leaves a free byte in every
existing byte of its written region and every other byte as it was; its code is the one its rule gives; the race is
over. -/
def Obligations.RacedCommandLeavesFreeBytes : Prop :=
  (∀ (s : State) (sp : Bool) (n src size : Nat), n = s.cur.len.toNat → src = s.cur.src.toNat →
    size = 2 ^ addrW s.platform → s.mem.wf = true → s.raced = true →
    (sp = true → 2 ≤ n → src + n ≤ size →
      (∀ a, InPairSet src n a → admits s.platform .read a = true ∧ admits s.platform .write a = true) →
      ∀ a, InPairSet src n a → hasSideEffects s.platform a = false) →
    ∃ (m : Memory) (err : ErrCode),
      exec (.revip sp) s =
        .next { s with mem := m, draws := s.draws + 1, raced := false, status := completedStatus s err } ∧
      m.wf = true ∧ (∀ a, a < size → InRegion src n a → m.read a = Config.anyByte s.draws a) ∧
      (∀ a, ¬(a < size ∧ InRegion src n a) → m.read a = s.mem.read a) ∧
      (sp = false ∨ n < 2 → err = .ok) ∧ (sp = true → 2 ≤ n → size < src + n → err = .range) ∧
      (sp = true → 2 ≤ n → src + n ≤ size →
        (∃ a, InPairSet src n a ∧ (admits s.platform .read a = false ∨ admits s.platform .write a = false)) →
        err = .memFault) ∧
      (sp = true → 2 ≤ n → src + n ≤ size →
        (∀ a, InPairSet src n a → admits s.platform .read a = true ∧ admits s.platform .write a = true) → err = .ok)) ∧
  ∀ (s : State) (sp dp : Bool) (n src dst size : Nat), n = s.cur.len.toNat → src = s.cur.src.toNat →
    dst = s.cur.dst.toNat → size = 2 ^ addrW s.platform → s.mem.wf = true → s.raced = true →
    (sp = true → dp = true → 1 ≤ n → src + n ≤ size → dst + n ≤ size → ¬(src < dst + n ∧ dst < src + n) →
      (∀ a, InRegion src n a → admits s.platform .read a = true) →
      (∀ a, InRegion dst n a → admits s.platform .write a = true) →
      ∀ a, InRegion src n a ∨ InRegion dst n a → hasSideEffects s.platform a = false) →
    ∃ (m : Memory) (err : ErrCode),
      exec (.revcp sp dp) s =
        .next { s with mem := m, draws := s.draws + 1, raced := false, status := completedStatus s err } ∧
      m.wf = true ∧ (∀ a, a < size → InRegion dst n a → m.read a = Config.anyByte s.draws a) ∧
      (∀ a, ¬(a < size ∧ InRegion dst n a) → m.read a = s.mem.read a) ∧
      (sp = false ∨ n = 0 → err = .ok) ∧ (sp = true → 1 ≤ n → dp = false → err = .outAbsent) ∧
      (sp = true → 1 ≤ n → dp = true → size < src + n ∨ size < dst + n → err = .range) ∧
      (sp = true → 1 ≤ n → dp = true → src + n ≤ size → dst + n ≤ size → src < dst + n ∧ dst < src + n →
        err = .aliased) ∧
      (sp = true → 1 ≤ n → dp = true → src + n ≤ size → dst + n ≤ size → ¬(src < dst + n ∧ dst < src + n) →
        (∃ a, (InRegion src n a ∧ admits s.platform .read a = false) ∨
          (InRegion dst n a ∧ admits s.platform .write a = false)) → err = .memFault) ∧
      (sp = true → 1 ≤ n → dp = true → src + n ≤ size → dst + n ≤ size → ¬(src < dst + n ∧ dst < src + n) →
        (∀ a, InRegion src n a → admits s.platform .read a = true) →
        (∀ a, InRegion dst n a → admits s.platform .write a = true) → err = .ok)

/-- 20_memory R59 (log entry 10): a host store to a byte no command owns is seen by the host's loads at once, by another
master's load not yet, and by everyone after the host's fence, which brings every pending store to memory. -/
def Obligations.HostStoresBecomeVisibleLater : Prop :=
  ∀ (s : State) (a : Nat) (b : Byte), s.mem.wf = true → a < 2 ^ addrW s.platform →
    hasSideEffects s.platform a = false → owns s a = false →
    ∃ t, storeByte s .host a b = .next t ∧ t = { s with unseen := s.unseen ++ [(a, b)], reply := .taken } ∧
      loadByte t .host a = .next (t.setReply (.data [b])) ∧
      loadByte t .other a = .next (t.setReply (.data [s.mem.read a])) ∧
      ((∀ c ∈ s.unseen, owns s c.1 = false) → ∃ m : Memory,
        act t .host .fence = .next { t with mem := m, unseen := [], reply := .taken } ∧ m.wf = true ∧
        m.read a = b ∧ ∀ x, m.read x = (pendingByte t.unseen x).getD (s.mem.read x))

/-- 20_memory R50, R58 (log entry 10): a load of a byte no command owns returns it (the host's with its own pending
stores), and another master's store to one changes that byte and no other. -/
def Obligations.UnownedLoadsAndStoresComplete : Prop :=
  ∀ (s : State) (a : Nat) (b : Byte), s.mem.wf = true → a < 2 ^ addrW s.platform →
    hasSideEffects s.platform a = false → owns s a = false →
    loadByte s .host a = .next (s.setReply (.data [(pendingByte s.unseen a).getD (s.mem.read a)])) ∧
    loadByte s .other a = .next (s.setReply (.data [s.mem.read a])) ∧
    ∃ m : Memory, storeByte s .other a b = .next { s with mem := m, reply := .taken } ∧ m.wf = true ∧
      m.read a = b ∧ ∀ x, x ≠ a → m.read x = s.mem.read x

/-- 20_memory R59 (log entry 10): in a visible turn the oldest pending host store reaches memory, and nothing else
changes; without one nothing happens. -/
def Obligations.VisibleTurnLandsTheOldestStore : Prop :=
  ∀ s : State, nextTurn s = .visible →
    (s.unseen = [] → step s = .next { s with turns := s.turns.tail }) ∧
    ∀ (c : Host.Cell) (rest : List Host.Cell), s.unseen = c :: rest → owns s c.1 = false → s.mem.wf = true →
      ∃ m : Memory, step s = .next { s with turns := s.turns.tail, unseen := rest, mem := m } ∧ m.wf = true ∧
        m.read c.1 = c.2 ∧ ∀ x, x ≠ c.1 → m.read x = s.mem.read x

/-- 20_memory R50 (log entry 14): a load or store at an address the GBRE memory does not have stops by name. -/
def Obligations.AddressesOutsideTheSpaceFault : Prop :=
  ∀ (s : State) (who : Master) (a : Nat) (b : Byte), 2 ^ addrW s.platform ≤ a →
    loadByte s who a = .fault .noSuchAddress ∧ storeByte s who a b = .fault .noSuchAddress

/-! ### Reset -/

/-- 70_reset_and_hazards R160: asserting and deasserting reset give every piece of BRX state its reset value; memory is
untouched where no command is cut; while reset is asserted a window write changes nothing (log entry 9). -/
def Obligations.ResetInputClearsBrx : Prop :=
  ∀ s : State,
    (nextTurn s = .resetOn → ∃ t, step s = .next t ∧ BrxAtReset t ∧ t.resetAsserted = true ∧
      (s.status.busy = false → t.mem = s.mem)) ∧
    (nextTurn s = .resetOff → s.resetAsserted = true → ∃ t, step s = .next t ∧ BrxAtReset t ∧
      t.resetAsserted = false ∧ t.mem = s.mem) ∧
    (s.resetAsserted = true → ∀ (addr : Nat) (data : List Byte), ∃ r, busWrite s addr data = s.setReply r)

/-- 70_reset_and_hazards R161 (absent references, the clip at the top, overlapping regions, illegal words: log entries 6
and 8): a step that asserts reset cuts the command in flight; a PN command and an illegal word leave memory; a GBRE
command, its references present or absent, leaves free bytes in its written region and every other byte. -/
def Obligations.ResetDuringACommandFreesItsRegion : Prop :=
  ∀ s : State, s.mem.wf = true → s.status.busy = true → nextTurn s = .resetOn →
    ∃ t, step s = .next t ∧ BrxAtReset t ∧ t.resetAsserted = true ∧
    (∀ i, i ∈ ([.swap32, .swap64, .frev32, .frev64] : List Instr) → decode s.cur.cmd = .ok i → t.mem = s.mem) ∧
    (¬LegalWord s.cur.cmd → t.mem = s.mem) ∧
    (∀ sp, decode s.cur.cmd = .ok (.revip sp) →
      (∀ a, a < 2 ^ addrW s.platform → InRegion s.cur.src.toNat s.cur.len.toNat a →
        t.mem.read a = Config.anyByte s.draws a) ∧
      ∀ a, ¬InRegion s.cur.src.toNat s.cur.len.toNat a → t.mem.read a = s.mem.read a) ∧
    (∀ sp dp, decode s.cur.cmd = .ok (.revcp sp dp) →
      (∀ a, a < 2 ^ addrW s.platform → InRegion s.cur.dst.toNat s.cur.len.toNat a →
        t.mem.read a = Config.anyByte s.draws a) ∧
      ∀ a, ¬InRegion s.cur.dst.toNat s.cur.len.toNat a → t.mem.read a = s.mem.read a)

/-! ### Steps and whole-machine rules -/

/-- 10_state R43: in the sequencer's turn, with a command in flight whose word decodes to `i`, the step is `exec i`, on
the state whose schedule has lost its head. -/
def Obligations.StepRunsTheDecodedCommand : Prop :=
  ∀ (s : State) (i : Instr), nextTurn s = .sequencer → s.status.busy = true → decode s.cur.cmd = .ok i →
    step s = exec i { s with turns := s.turns.tail }

/-- 10_state R41, R43 (log entry 4): a command placed by `withFetchWord` is the one the next step runs, on the state right
after its Accept. -/
def Obligations.PlacedCommandRunsNext : Prop :=
  ∀ (s : State) (i : Instr),
    step (s.withFetchWord 64 (encode i).toNat) = exec i { s.accept (encode i) with resetAsserted := false }

/-- 30_encoding R80: a poll reads STATUS and stays the host's next line exactly while BUSY = 1. -/
def Obligations.PollRepeatsWhileBusy : Prop :=
  ∀ (s : State) (rest : List Action), s.host = .poll :: rest →
    hostTurn s = .next { s with
      host := if s.status.busy then .poll :: rest else rest
      reply := .data (bytesOfWord (statusWord s.status)) }

/-- The invariant holds at reset, on every platform. -/
def Obligations.InvariantHoldsAtReset : Prop := ∀ p : Config.Platform, Inv (State.resetOn p)

/-- Every step keeps the invariant. -/
def Obligations.EveryStepKeepsTheInvariant : Prop :=
  ∀ s t : State, Inv s → step s = .next t → Inv t

/-- 00_scope R9: the platform's parameters never change. -/
def Obligations.NoStepChangesThePlatform : Prop :=
  ∀ s t : State, step s = .next t → t.platform = s.platform

/-- 10_state R29: BUSY goes up only by an Accept, which puts the written word into CMD and `cur`, and comes down only by
the sequencer's Complete or a reset. -/
def Obligations.BusyRisesByAcceptAndFallsByComplete : Prop :=
  ∀ s t : State, step s = .next t →
    (s.status.busy = false → t.status.busy = true →
      ∃ data : List Byte, t.cmd = wordOfBytes data ∧ t.cur.cmd = wordOfBytes data ∧
        t.status = ⟨true, false, false, .ok⟩ ∧
        ((nextTurn s = .host ∧ s.host.head? = some (.busWrite (brxBase s.platform + 0x10) data)) ∨
          nextTurn s = .other (.busWrite (brxBase s.platform + 0x10) data))) ∧
    (s.status.busy = true → t.status.busy = false →
      (nextTurn s = .sequencer ∧ t.status.done = true) ∨
        ((nextTurn s = .resetOn ∨ nextTurn s = .resetOff) ∧ t.status.done = false))

/-- 10_state R37, R49: DOUT changes only in the Complete of a legal PN command, which completes with OK, and in a
reset. -/
def Obligations.DoutChangesOnlyByPermutationCommands : Prop :=
  ∀ s t : State, step s = .next t → t.dout ≠ s.dout →
    (nextTurn s = .sequencer ∧ s.status.busy = true ∧ t.status.err = .ok ∧
      ∃ i, i ∈ ([.swap32, .swap64, .frev32, .frev64] : List Instr) ∧ decode s.cur.cmd = .ok i) ∨
    nextTurn s = .resetOn ∨ nextTurn s = .resetOff

/-- 10_state R40: weak fairness. A command in flight has completed, or was cut by a reset, at the latest one step after
the schedule is used up, as long as no step stops (that the sequencer moves then is the model's choice, log entry 3). -/
def Obligations.CommandInFlightCompletes : Prop :=
  ∀ s : State, s.status.busy = true → s.resetAsserted = false →
    (∀ k, k ≤ s.turns.length + 1 → ∃ t, Host.Core.run Sys2Proof.core k s = .next t) →
    ∃ k t, 1 ≤ k ∧ k ≤ s.turns.length + 1 ∧ Host.Core.run Sys2Proof.core k s = .next t ∧ t.status.busy = false
end

