-- ==== Sys2Proof/Laws/Memory.lean ====
section
/-! SUPPORT. The memory operations: what a read gives after each, that each keeps the canonical form, and that the
canonical form makes equal memories equal lists. -/

namespace Sys2Proof.Machine

theorem Memory.wfFrom_mono {lo lo' : Nat} (h : lo ≤ lo') : ∀ m : Memory, Memory.wfFrom lo' m = true → Memory.wfFrom lo m = true
  | [], _ => rfl
  | (k, v) :: m, hm => by
    simp only [Memory.wfFrom, Bool.and_eq_true, decide_eq_true_eq] at hm ⊢
    exact ⟨⟨le_trans h hm.1.1, hm.1.2⟩, hm.2⟩

/-- Below every listed address a read gives the fill byte. -/
theorem Memory.read_below : ∀ (m : Memory) (lo a : Nat), Memory.wfFrom lo m = true → a < lo → m.read a = Memory.fill
  | [], _, _, _, _ => rfl
  | (k, v) :: m, lo, a, hm, ha => by
    simp only [Memory.wfFrom, Bool.and_eq_true, decide_eq_true_eq] at hm
    have hk : k ≠ a := by omega
    rw [Memory.read, if_neg hk]
    exact Memory.read_below m (k + 1) a hm.2 (by omega)

/-- Above every listed address a read gives the fill byte. -/
theorem Memory.read_above : ∀ (m : Memory) (hi : Nat), (∀ c ∈ m, c.1 < hi) → ∀ a, hi ≤ a → m.read a = Memory.fill
  | [], _, _, _, _ => rfl
  | (k, v) :: m, hi, hm, a, ha => by
    have hk : k < hi := hm (k, v) (by simp)
    rw [Memory.read, if_neg (by omega)]
    exact Memory.read_above m hi (fun c hc => hm c (by simp [hc])) a ha

theorem Memory.write_wfFrom : ∀ (m : Memory) (lo a : Nat) (b : Byte), Memory.wfFrom lo m = true → lo ≤ a →
    Memory.wfFrom lo (m.write a b) = true
  | [], lo, a, b, _, ha => by
    by_cases hb : b = Memory.fill
    · simp [Memory.write, hb, Memory.wfFrom]
    · simp [Memory.write, hb, Memory.wfFrom, ha]
  | (k, v) :: m, lo, a, b, hm, ha => by
    simp only [Memory.wfFrom, Bool.and_eq_true, decide_eq_true_eq] at hm
    obtain ⟨⟨hlo, hv⟩, htail⟩ := hm
    rcases Nat.lt_trichotomy a k with hak | hak | hak
    · by_cases hb : b = Memory.fill
      · simp [Memory.write, hak, hb, Memory.wfFrom, hlo, hv, htail]
      · simp [Memory.write, hak, hb, Memory.wfFrom, ha, hv, htail]
    · subst hak
      by_cases hb : b = Memory.fill
      · simpa [Memory.write, hb] using Memory.wfFrom_mono (by omega) m htail
      · simp [Memory.write, hb, Memory.wfFrom, ha, htail]
    · have h1 : ¬a < k := by omega
      have h2 : a ≠ k := by omega
      have ih := Memory.write_wfFrom m (k + 1) a b htail (by omega)
      simp [Memory.write, h1, h2, Memory.wfFrom, hlo, hv, ih]

/-- A write keeps the canonical form. -/
theorem Memory.write_wf {m : Memory} (h : m.wf = true) (a : Nat) (b : Byte) : (m.write a b).wf = true :=
  Memory.write_wfFrom m 0 a b h (Nat.zero_le a)

theorem Memory.read_write_from : ∀ (m : Memory) (lo a : Nat) (b : Byte) (c : Nat), Memory.wfFrom lo m = true →
    (m.write a b).read c = if c = a then b else m.read c
  | [], lo, a, b, c, _ => by
    by_cases hb : b = Memory.fill
    · simp [Memory.write, hb, Memory.read]
    · by_cases hc : c = a
      · simp [Memory.write, hb, Memory.read, hc]
      · simp [Memory.write, hb, Memory.read, hc, Ne.symm hc]
  | (k, v) :: m, lo, a, b, c, hm => by
    simp only [Memory.wfFrom, Bool.and_eq_true, decide_eq_true_eq] at hm
    obtain ⟨⟨_, _⟩, htail⟩ := hm
    rcases Nat.lt_trichotomy a k with hak | hak | hak
    · have hka : k ≠ a := by omega
      by_cases hb : b = Memory.fill
      · by_cases hc : c = a
        · subst hc
          simp [Memory.write, hak, hb, Memory.read, hka, Memory.read_below m (k + 1) c htail (by omega)]
        · simp [Memory.write, hak, hb, hc]
      · by_cases hc : c = a
        · simp [Memory.write, hak, hb, Memory.read, hc]
        · simp [Memory.write, hak, hb, Memory.read, hc, Ne.symm hc]
    · subst hak
      by_cases hb : b = Memory.fill
      · by_cases hc : c = a
        · subst hc
          simp [Memory.write, hb, Memory.read_below m (c + 1) c htail (by omega)]
        · simp [Memory.write, hb, Memory.read, hc, Ne.symm hc]
      · by_cases hc : c = a
        · simp [Memory.write, hb, Memory.read, hc]
        · simp [Memory.write, hb, Memory.read, hc, Ne.symm hc]
    · have h1 : ¬a < k := by omega
      have h2 : a ≠ k := by omega
      have ih := Memory.read_write_from m (k + 1) a b c htail
      by_cases hkc : k = c
      · subst hkc
        simp [Memory.write, h1, h2, Memory.read, Ne.symm h2]
      · simp [Memory.write, h1, h2, Memory.read, hkc, ih]

/-- A read after a write: the written byte at its address, the old byte elsewhere. -/
theorem Memory.read_write {m : Memory} (h : m.wf = true) (a : Nat) (b : Byte) (c : Nat) :
    (m.write a b).read c = if c = a then b else m.read c := Memory.read_write_from m 0 a b c h

theorem Memory.eq_of_read_from : ∀ (m m' : Memory) (lo : Nat), Memory.wfFrom lo m = true → Memory.wfFrom lo m' = true →
    (∀ a, m.read a = m'.read a) → m = m'
  | [], [], _, _, _, _ => rfl
  | [], (k, v) :: m', lo, _, h', e => by
    simp only [Memory.wfFrom, Bool.and_eq_true, decide_eq_true_eq] at h'
    have := e k
    simp only [Memory.read, if_true] at this
    exact absurd this.symm h'.1.2
  | (k, v) :: m, [], lo, h, _, e => by
    simp only [Memory.wfFrom, Bool.and_eq_true, decide_eq_true_eq] at h
    have := e k
    simp only [Memory.read, if_true] at this
    exact absurd this h.1.2
  | (k, v) :: m, (k', v') :: m', lo, h, h', e => by
    simp only [Memory.wfFrom, Bool.and_eq_true, decide_eq_true_eq] at h h'
    have hkk : k = k' := by
      rcases Nat.lt_trichotomy k k' with hlt | heq | hgt
      · have hr := e k
        simp only [Memory.read, if_true, if_neg (show k' ≠ k by omega),
          Memory.read_below m' (k' + 1) k h'.2 (by omega)] at hr
        exact absurd hr h.1.2
      · exact heq
      · have hr := e k'
        simp only [Memory.read, if_true, if_neg (show k ≠ k' by omega),
          Memory.read_below m (k + 1) k' h.2 (by omega)] at hr
        exact absurd hr.symm h'.1.2
    subst hkk
    have hv : v = v' := by simpa [Memory.read] using e k
    subst hv
    have ht : m = m' := by
      refine Memory.eq_of_read_from m m' (k + 1) h.2 h'.2 (fun a => ?_)
      by_cases ha : k = a
      · subst ha
        rw [Memory.read_below m (k + 1) k h.2 (by omega), Memory.read_below m' (k + 1) k h'.2 (by omega)]
      · simpa [Memory.read, ha] using e a
    rw [ht]

/-- Canonical memories that read the same are the same list. -/
theorem Memory.eq_of_read {m m' : Memory} (h : m.wf = true) (h' : m'.wf = true) (e : ∀ a, m.read a = m'.read a) :
    m = m' := Memory.eq_of_read_from m m' 0 h h' e

/-- Bytes placed in a canonical memory leave it canonical. -/
theorem Memory.place_wf : ∀ (bs : List Byte) {m : Memory} (a : Nat), m.wf = true → (m.place a bs).wf = true
  | [], _, _, h => h
  | b :: bs, _, a, h => Memory.place_wf bs (a + 1) (Memory.write_wf h a b)

/-! ### The loops -/

theorem swapPair_wf {m : Memory} (h : m.wf = true) (lo hi : Nat) : (swapPair m lo hi).wf = true :=
  Memory.write_wf (Memory.write_wf h _ _) _ _

/-- One exchange: each of the two addresses reads what the other held, every other address as before. -/
theorem swapPair_read {m : Memory} (h : m.wf = true) (lo hi a : Nat) :
    (swapPair m lo hi).read a = if a = hi then m.read lo else if a = lo then m.read hi else m.read a := by
  simp only [swapPair, Memory.read_write (Memory.write_wf h _ _), Memory.read_write h]

theorem swapPairs_wf {m : Memory} (h : m.wf = true) (base n : Nat) : ∀ k, (swapPairs m base n k).wf = true
  | 0 => h
  | k + 1 => swapPair_wf (swapPairs_wf h base n k) _ _

/-- After `k` exchanges the outer `k` bytes of each end hold the mirrored bytes and nothing else changed. -/
theorem swapPairs_read {m : Memory} (h : m.wf = true) (base n : Nat) : ∀ k, k ≤ n / 2 → ∀ a,
    (swapPairs m base n k).read a =
      if (base ≤ a ∧ a < base + k) ∨ (base + n - k ≤ a ∧ a < base + n) then m.read (base + n - 1 - (a - base))
      else m.read a
  | 0, _, a => by
    rw [swapPairs, if_neg (by omega)]
  | k + 1, hk, a => by
    have ih := swapPairs_read h base n k (by omega)
    rw [swapPairs, swapPair_read (swapPairs_wf h base n k), ih, ih, ih]
    by_cases h1 : a = base + n - 1 - k
    · rw [if_pos h1, if_neg (by omega), if_pos (by omega)]
      congr 1
      omega
    · rw [if_neg h1]
      by_cases h2 : a = base + k
      · rw [if_pos h2, if_neg (by omega), if_pos (by omega)]
        congr 1
        omega
      · rw [if_neg h2]
        by_cases h3 : (base ≤ a ∧ a < base + k) ∨ (base + n - k ≤ a ∧ a < base + n)
        · rw [if_pos h3, if_pos (by omega)]
        · rw [if_neg h3, if_neg (by omega)]

theorem copyReversed_wf {m : Memory} (h : m.wf = true) (src dst n : Nat) : ∀ k, (copyReversed m src dst n k).wf = true
  | 0 => h
  | k + 1 => Memory.write_wf (copyReversed_wf h src dst n k) _ _

/-- After `k` copies the first `k` output bytes hold the mirrored input bytes and nothing else changed. -/
theorem copyReversed_read {m : Memory} (h : m.wf = true) (src dst n : Nat) (hsep : src + n ≤ dst ∨ dst + n ≤ src) :
    ∀ k, k ≤ n → ∀ a, (copyReversed m src dst n k).read a =
      if dst ≤ a ∧ a < dst + k then m.read (src + n - 1 - (a - dst)) else m.read a
  | 0, _, a => by rw [copyReversed, if_neg (by omega)]
  | k + 1, hk, a => by
    have ih := copyReversed_read h src dst n hsep k (by omega)
    rw [copyReversed, Memory.read_write (copyReversed_wf h src dst n k), ih, ih]
    by_cases h1 : a = dst + k
    · rw [if_pos h1, if_neg (by omega), if_pos (by omega)]
      congr 1
      omega
    · rw [if_neg h1]
      by_cases h2 : dst ≤ a ∧ a < dst + k
      · rw [if_pos h2, if_pos (by omega)]
      · rw [if_neg h2, if_neg (by omega)]

/-- The copy changes no byte outside the output region, whatever the regions are. -/
theorem copyReversed_outside {m : Memory} (h : m.wf = true) (src dst n : Nat) : ∀ k a, ¬(dst ≤ a ∧ a < dst + k) →
    (copyReversed m src dst n k).read a = m.read a
  | 0, _, _ => rfl
  | k + 1, a, ha => by
    rw [copyReversed, Memory.read_write (copyReversed_wf h src dst n k), if_neg (by omega),
      copyReversed_outside h src dst n k a (by omega)]

theorem scramble_wf {m : Memory} (h : m.wf = true) (d base : Nat) : ∀ k, (scramble m d base k).wf = true
  | 0 => h
  | k + 1 => Memory.write_wf (scramble_wf h d base k) _ _

/-- After a scramble the region holds the draw's free bytes and nothing else changed. -/
theorem scramble_read {m : Memory} (h : m.wf = true) (d base : Nat) : ∀ k a, (scramble m d base k).read a =
    if base ≤ a ∧ a < base + k then Config.anyByte d a else m.read a
  | 0, a => by rw [scramble, if_neg (by omega)]
  | k + 1, a => by
    rw [scramble, Memory.read_write (scramble_wf h d base k), scramble_read h d base k a]
    by_cases h1 : a = base + k
    · rw [if_pos h1, if_pos (by omega), h1]
    · rw [if_neg h1]
      by_cases h2 : base ≤ a ∧ a < base + k
      · rw [if_pos h2, if_pos (by omega)]
      · rw [if_neg h2, if_neg (by omega)]

/-! ### Quantified checks -/

/-- `allBelow` is the bounded universal statement. -/
theorem allBelow_iff (f : Nat → Bool) : ∀ n, allBelow n f = true ↔ ∀ i, i < n → f i = true
  | 0 => by simp [allBelow]
  | n + 1 => by
    simp only [allBelow, Bool.and_eq_true, allBelow_iff f n]
    constructor
    · rintro ⟨hn, hlt⟩ i hi
      rcases Nat.lt_succ_iff_lt_or_eq.mp hi with h | h
      · exact hlt i h
      · exact h ▸ hn
    · intro hall
      exact ⟨hall n (by omega), fun i hi => hall i (by omega)⟩

/-- The check over `PairSet` (41_buffer_reversal R121). -/
theorem allPairSet_iff (base n : Nat) (f : Nat → Bool) :
    allPairSet base n f = true ↔ ∀ a, InPairSet base n a → f a = true := by
  simp only [allPairSet, allBelow_iff, Bool.and_eq_true]
  constructor
  · rintro h a ⟨i, hi, rfl | rfl⟩
    · exact (h i hi).1
    · exact (h i hi).2
  · intro h i hi
    exact ⟨h _ ⟨i, hi, Or.inl rfl⟩, h _ ⟨i, hi, Or.inr rfl⟩⟩

/-- The check over `Region` (41_buffer_reversal R121). -/
theorem allRegion_iff (base n : Nat) (f : Nat → Bool) :
    allRegion base n f = true ↔ ∀ a, InRegion base n a → f a = true := by
  simp only [allRegion, allBelow_iff]
  constructor
  · rintro h a ⟨h1, h2⟩
    have := h (a - base) (by omega)
    rwa [show base + (a - base) = a by omega] at this
  · intro h i hi
    exact h _ ⟨by omega, by omega⟩

@[simp] theorem Region.contains_iff (r : Region) (a : Nat) : r.contains a = true ↔ InRegion r.base r.len a := by
  simp [Region.contains, InRegion]

@[simp] theorem Region.contains_empty (a : Nat) : Region.empty.contains a = false := by
  simp [Region.contains, Region.empty]

end Sys2Proof.Machine
end

