-- ==== Sys2Proof/Laws/State.lean ====
section
/-! SUPPORT. One lemma per field per update of the state: no later proof unfolds a record update. -/

namespace Sys2Proof.Machine

/-! ### `State.setDout` -/

@[simp] theorem State.setDout_platform (s : State) (v : Word) : (s.setDout v).platform = s.platform := rfl
@[simp] theorem State.setDout_status (s : State) (v : Word) : (s.setDout v).status = s.status := rfl
@[simp] theorem State.setDout_cmd (s : State) (v : Word) : (s.setDout v).cmd = s.cmd := rfl
@[simp] theorem State.setDout_din (s : State) (v : Word) : (s.setDout v).din = s.din := rfl
@[simp] theorem State.setDout_dout (s : State) (v : Word) : (s.setDout v).dout = v := rfl
@[simp] theorem State.setDout_src (s : State) (v : Word) : (s.setDout v).src = s.src := rfl
@[simp] theorem State.setDout_dst (s : State) (v : Word) : (s.setDout v).dst = s.dst := rfl
@[simp] theorem State.setDout_len (s : State) (v : Word) : (s.setDout v).len = s.len := rfl
@[simp] theorem State.setDout_cur (s : State) (v : Word) : (s.setDout v).cur = s.cur := rfl
@[simp] theorem State.setDout_mem (s : State) (v : Word) : (s.setDout v).mem = s.mem := rfl
@[simp] theorem State.setDout_resetAsserted (s : State) (v : Word) : (s.setDout v).resetAsserted = s.resetAsserted := rfl
@[simp] theorem State.setDout_raced (s : State) (v : Word) : (s.setDout v).raced = s.raced := rfl
@[simp] theorem State.setDout_unseen (s : State) (v : Word) : (s.setDout v).unseen = s.unseen := rfl
@[simp] theorem State.setDout_draws (s : State) (v : Word) : (s.setDout v).draws = s.draws := rfl
@[simp] theorem State.setDout_host (s : State) (v : Word) : (s.setDout v).host = s.host := rfl
@[simp] theorem State.setDout_turns (s : State) (v : Word) : (s.setDout v).turns = s.turns := rfl
@[simp] theorem State.setDout_reply (s : State) (v : Word) : (s.setDout v).reply = s.reply := rfl

/-! ### `State.setMem` -/

@[simp] theorem State.setMem_platform (s : State) (m : Memory) : (s.setMem m).platform = s.platform := rfl
@[simp] theorem State.setMem_status (s : State) (m : Memory) : (s.setMem m).status = s.status := rfl
@[simp] theorem State.setMem_cmd (s : State) (m : Memory) : (s.setMem m).cmd = s.cmd := rfl
@[simp] theorem State.setMem_din (s : State) (m : Memory) : (s.setMem m).din = s.din := rfl
@[simp] theorem State.setMem_dout (s : State) (m : Memory) : (s.setMem m).dout = s.dout := rfl
@[simp] theorem State.setMem_src (s : State) (m : Memory) : (s.setMem m).src = s.src := rfl
@[simp] theorem State.setMem_dst (s : State) (m : Memory) : (s.setMem m).dst = s.dst := rfl
@[simp] theorem State.setMem_len (s : State) (m : Memory) : (s.setMem m).len = s.len := rfl
@[simp] theorem State.setMem_cur (s : State) (m : Memory) : (s.setMem m).cur = s.cur := rfl
@[simp] theorem State.setMem_mem (s : State) (m : Memory) : (s.setMem m).mem = m := rfl
@[simp] theorem State.setMem_resetAsserted (s : State) (m : Memory) : (s.setMem m).resetAsserted = s.resetAsserted := rfl
@[simp] theorem State.setMem_raced (s : State) (m : Memory) : (s.setMem m).raced = s.raced := rfl
@[simp] theorem State.setMem_unseen (s : State) (m : Memory) : (s.setMem m).unseen = s.unseen := rfl
@[simp] theorem State.setMem_draws (s : State) (m : Memory) : (s.setMem m).draws = s.draws := rfl
@[simp] theorem State.setMem_host (s : State) (m : Memory) : (s.setMem m).host = s.host := rfl
@[simp] theorem State.setMem_turns (s : State) (m : Memory) : (s.setMem m).turns = s.turns := rfl
@[simp] theorem State.setMem_reply (s : State) (m : Memory) : (s.setMem m).reply = s.reply := rfl

/-! ### `State.setReply` -/

@[simp] theorem State.setReply_platform (s : State) (r : Reply) : (s.setReply r).platform = s.platform := rfl
@[simp] theorem State.setReply_status (s : State) (r : Reply) : (s.setReply r).status = s.status := rfl
@[simp] theorem State.setReply_cmd (s : State) (r : Reply) : (s.setReply r).cmd = s.cmd := rfl
@[simp] theorem State.setReply_din (s : State) (r : Reply) : (s.setReply r).din = s.din := rfl
@[simp] theorem State.setReply_dout (s : State) (r : Reply) : (s.setReply r).dout = s.dout := rfl
@[simp] theorem State.setReply_src (s : State) (r : Reply) : (s.setReply r).src = s.src := rfl
@[simp] theorem State.setReply_dst (s : State) (r : Reply) : (s.setReply r).dst = s.dst := rfl
@[simp] theorem State.setReply_len (s : State) (r : Reply) : (s.setReply r).len = s.len := rfl
@[simp] theorem State.setReply_cur (s : State) (r : Reply) : (s.setReply r).cur = s.cur := rfl
@[simp] theorem State.setReply_mem (s : State) (r : Reply) : (s.setReply r).mem = s.mem := rfl
@[simp] theorem State.setReply_resetAsserted (s : State) (r : Reply) : (s.setReply r).resetAsserted = s.resetAsserted := rfl
@[simp] theorem State.setReply_raced (s : State) (r : Reply) : (s.setReply r).raced = s.raced := rfl
@[simp] theorem State.setReply_unseen (s : State) (r : Reply) : (s.setReply r).unseen = s.unseen := rfl
@[simp] theorem State.setReply_draws (s : State) (r : Reply) : (s.setReply r).draws = s.draws := rfl
@[simp] theorem State.setReply_host (s : State) (r : Reply) : (s.setReply r).host = s.host := rfl
@[simp] theorem State.setReply_turns (s : State) (r : Reply) : (s.setReply r).turns = s.turns := rfl
@[simp] theorem State.setReply_reply (s : State) (r : Reply) : (s.setReply r).reply = r := rfl

/-! ### `State.complete` -/

@[simp] theorem State.complete_platform (s : State) (e : ErrCode) : (s.complete e).platform = s.platform := rfl
@[simp] theorem State.complete_status (s : State) (e : ErrCode) : (s.complete e).status = completedStatus s e := rfl
@[simp] theorem State.complete_cmd (s : State) (e : ErrCode) : (s.complete e).cmd = s.cmd := rfl
@[simp] theorem State.complete_din (s : State) (e : ErrCode) : (s.complete e).din = s.din := rfl
@[simp] theorem State.complete_dout (s : State) (e : ErrCode) : (s.complete e).dout = s.dout := rfl
@[simp] theorem State.complete_src (s : State) (e : ErrCode) : (s.complete e).src = s.src := rfl
@[simp] theorem State.complete_dst (s : State) (e : ErrCode) : (s.complete e).dst = s.dst := rfl
@[simp] theorem State.complete_len (s : State) (e : ErrCode) : (s.complete e).len = s.len := rfl
@[simp] theorem State.complete_cur (s : State) (e : ErrCode) : (s.complete e).cur = s.cur := rfl
@[simp] theorem State.complete_mem (s : State) (e : ErrCode) : (s.complete e).mem = s.mem := rfl
@[simp] theorem State.complete_resetAsserted (s : State) (e : ErrCode) : (s.complete e).resetAsserted = s.resetAsserted := rfl
@[simp] theorem State.complete_raced (s : State) (e : ErrCode) : (s.complete e).raced = s.raced := rfl
@[simp] theorem State.complete_unseen (s : State) (e : ErrCode) : (s.complete e).unseen = s.unseen := rfl
@[simp] theorem State.complete_draws (s : State) (e : ErrCode) : (s.complete e).draws = s.draws := rfl
@[simp] theorem State.complete_host (s : State) (e : ErrCode) : (s.complete e).host = s.host := rfl
@[simp] theorem State.complete_turns (s : State) (e : ErrCode) : (s.complete e).turns = s.turns := rfl
@[simp] theorem State.complete_reply (s : State) (e : ErrCode) : (s.complete e).reply = s.reply := rfl

/-! ### `State.reject` -/

@[simp] theorem State.reject_platform (s : State) : s.reject.platform = s.platform := rfl
@[simp] theorem State.reject_status (s : State) : s.reject.status = s.status.overrun := rfl
@[simp] theorem State.reject_cmd (s : State) : s.reject.cmd = s.cmd := rfl
@[simp] theorem State.reject_din (s : State) : s.reject.din = s.din := rfl
@[simp] theorem State.reject_dout (s : State) : s.reject.dout = s.dout := rfl
@[simp] theorem State.reject_src (s : State) : s.reject.src = s.src := rfl
@[simp] theorem State.reject_dst (s : State) : s.reject.dst = s.dst := rfl
@[simp] theorem State.reject_len (s : State) : s.reject.len = s.len := rfl
@[simp] theorem State.reject_cur (s : State) : s.reject.cur = s.cur := rfl
@[simp] theorem State.reject_mem (s : State) : s.reject.mem = s.mem := rfl
@[simp] theorem State.reject_resetAsserted (s : State) : s.reject.resetAsserted = s.resetAsserted := rfl
@[simp] theorem State.reject_raced (s : State) : s.reject.raced = s.raced := rfl
@[simp] theorem State.reject_unseen (s : State) : s.reject.unseen = s.unseen := rfl
@[simp] theorem State.reject_draws (s : State) : s.reject.draws = s.draws := rfl
@[simp] theorem State.reject_host (s : State) : s.reject.host = s.host := rfl
@[simp] theorem State.reject_turns (s : State) : s.reject.turns = s.turns := rfl
@[simp] theorem State.reject_reply (s : State) : s.reject.reply = s.reply := rfl

/-! ### `State.popTurn` -/

@[simp] theorem State.popTurn_platform (s : State) : s.popTurn.platform = s.platform := rfl
@[simp] theorem State.popTurn_status (s : State) : s.popTurn.status = s.status := rfl
@[simp] theorem State.popTurn_cmd (s : State) : s.popTurn.cmd = s.cmd := rfl
@[simp] theorem State.popTurn_din (s : State) : s.popTurn.din = s.din := rfl
@[simp] theorem State.popTurn_dout (s : State) : s.popTurn.dout = s.dout := rfl
@[simp] theorem State.popTurn_src (s : State) : s.popTurn.src = s.src := rfl
@[simp] theorem State.popTurn_dst (s : State) : s.popTurn.dst = s.dst := rfl
@[simp] theorem State.popTurn_len (s : State) : s.popTurn.len = s.len := rfl
@[simp] theorem State.popTurn_cur (s : State) : s.popTurn.cur = s.cur := rfl
@[simp] theorem State.popTurn_mem (s : State) : s.popTurn.mem = s.mem := rfl
@[simp] theorem State.popTurn_resetAsserted (s : State) : s.popTurn.resetAsserted = s.resetAsserted := rfl
@[simp] theorem State.popTurn_raced (s : State) : s.popTurn.raced = s.raced := rfl
@[simp] theorem State.popTurn_unseen (s : State) : s.popTurn.unseen = s.unseen := rfl
@[simp] theorem State.popTurn_draws (s : State) : s.popTurn.draws = s.draws := rfl
@[simp] theorem State.popTurn_host (s : State) : s.popTurn.host = s.host := rfl
@[simp] theorem State.popTurn_turns (s : State) : s.popTurn.turns = s.turns.tail := rfl
@[simp] theorem State.popTurn_reply (s : State) : s.popTurn.reply = s.reply := rfl

/-! ### `State.latch` -/

@[simp] theorem State.latch_platform (s : State) (v : Word) : (s.latch v).platform = s.platform := rfl
@[simp] theorem State.latch_status (s : State) (v : Word) : (s.latch v).status = Status.accepted := rfl
@[simp] theorem State.latch_cmd (s : State) (v : Word) : (s.latch v).cmd = v := rfl
@[simp] theorem State.latch_din (s : State) (v : Word) : (s.latch v).din = s.din := rfl
@[simp] theorem State.latch_dout (s : State) (v : Word) : (s.latch v).dout = s.dout := rfl
@[simp] theorem State.latch_src (s : State) (v : Word) : (s.latch v).src = s.src := rfl
@[simp] theorem State.latch_dst (s : State) (v : Word) : (s.latch v).dst = s.dst := rfl
@[simp] theorem State.latch_len (s : State) (v : Word) : (s.latch v).len = s.len := rfl
@[simp] theorem State.latch_cur (s : State) (v : Word) : (s.latch v).cur = { cmd := v, din := s.din, src := srcReg s, dst := dstReg s, len := s.len } := rfl
@[simp] theorem State.latch_mem (s : State) (v : Word) : (s.latch v).mem = s.mem := rfl
@[simp] theorem State.latch_resetAsserted (s : State) (v : Word) : (s.latch v).resetAsserted = s.resetAsserted := rfl
@[simp] theorem State.latch_raced (s : State) (v : Word) : (s.latch v).raced = false := rfl
@[simp] theorem State.latch_unseen (s : State) (v : Word) : (s.latch v).unseen = s.unseen := rfl
@[simp] theorem State.latch_draws (s : State) (v : Word) : (s.latch v).draws = s.draws := rfl
@[simp] theorem State.latch_host (s : State) (v : Word) : (s.latch v).host = s.host := rfl
@[simp] theorem State.latch_turns (s : State) (v : Word) : (s.latch v).turns = s.turns := rfl
@[simp] theorem State.latch_reply (s : State) (v : Word) : (s.latch v).reply = s.reply := rfl

/-! ### `State.raceStore` -/

@[simp] theorem State.raceStore_platform (s : State) (c : Host.Cell) : (s.raceStore c).platform = s.platform := rfl
@[simp] theorem State.raceStore_status (s : State) (c : Host.Cell) : (s.raceStore c).status = s.status := rfl
@[simp] theorem State.raceStore_cmd (s : State) (c : Host.Cell) : (s.raceStore c).cmd = s.cmd := rfl
@[simp] theorem State.raceStore_din (s : State) (c : Host.Cell) : (s.raceStore c).din = s.din := rfl
@[simp] theorem State.raceStore_dout (s : State) (c : Host.Cell) : (s.raceStore c).dout = s.dout := rfl
@[simp] theorem State.raceStore_src (s : State) (c : Host.Cell) : (s.raceStore c).src = s.src := rfl
@[simp] theorem State.raceStore_dst (s : State) (c : Host.Cell) : (s.raceStore c).dst = s.dst := rfl
@[simp] theorem State.raceStore_len (s : State) (c : Host.Cell) : (s.raceStore c).len = s.len := rfl
@[simp] theorem State.raceStore_cur (s : State) (c : Host.Cell) : (s.raceStore c).cur = s.cur := rfl
@[simp] theorem State.raceStore_mem (s : State) (c : Host.Cell) : (s.raceStore c).mem = if ownsWritten s c.1 && Config.writeLost s.draws then s.mem else s.mem.write c.1 c.2 := rfl
@[simp] theorem State.raceStore_resetAsserted (s : State) (c : Host.Cell) : (s.raceStore c).resetAsserted = s.resetAsserted := rfl
@[simp] theorem State.raceStore_raced (s : State) (c : Host.Cell) : (s.raceStore c).raced = true := rfl
@[simp] theorem State.raceStore_unseen (s : State) (c : Host.Cell) : (s.raceStore c).unseen = s.unseen := rfl
@[simp] theorem State.raceStore_draws (s : State) (c : Host.Cell) : (s.raceStore c).draws = s.draws + 1 := rfl
@[simp] theorem State.raceStore_host (s : State) (c : Host.Cell) : (s.raceStore c).host = s.host := rfl
@[simp] theorem State.raceStore_turns (s : State) (c : Host.Cell) : (s.raceStore c).turns = s.turns := rfl
@[simp] theorem State.raceStore_reply (s : State) (c : Host.Cell) : (s.raceStore c).reply = s.reply := rfl

/-! ### `State.scrambleRegion` -/

@[simp] theorem State.scrambleRegion_platform (s : State) (g : Region) : (s.scrambleRegion g).platform = s.platform := rfl
@[simp] theorem State.scrambleRegion_status (s : State) (g : Region) : (s.scrambleRegion g).status = s.status := rfl
@[simp] theorem State.scrambleRegion_cmd (s : State) (g : Region) : (s.scrambleRegion g).cmd = s.cmd := rfl
@[simp] theorem State.scrambleRegion_din (s : State) (g : Region) : (s.scrambleRegion g).din = s.din := rfl
@[simp] theorem State.scrambleRegion_dout (s : State) (g : Region) : (s.scrambleRegion g).dout = s.dout := rfl
@[simp] theorem State.scrambleRegion_src (s : State) (g : Region) : (s.scrambleRegion g).src = s.src := rfl
@[simp] theorem State.scrambleRegion_dst (s : State) (g : Region) : (s.scrambleRegion g).dst = s.dst := rfl
@[simp] theorem State.scrambleRegion_len (s : State) (g : Region) : (s.scrambleRegion g).len = s.len := rfl
@[simp] theorem State.scrambleRegion_cur (s : State) (g : Region) : (s.scrambleRegion g).cur = s.cur := rfl
@[simp] theorem State.scrambleRegion_mem (s : State) (g : Region) : (s.scrambleRegion g).mem = scramble s.mem s.draws (g.clip s.platform).base (g.clip s.platform).len := rfl
@[simp] theorem State.scrambleRegion_resetAsserted (s : State) (g : Region) : (s.scrambleRegion g).resetAsserted = s.resetAsserted := rfl
@[simp] theorem State.scrambleRegion_raced (s : State) (g : Region) : (s.scrambleRegion g).raced = s.raced := rfl
@[simp] theorem State.scrambleRegion_unseen (s : State) (g : Region) : (s.scrambleRegion g).unseen = s.unseen := rfl
@[simp] theorem State.scrambleRegion_draws (s : State) (g : Region) : (s.scrambleRegion g).draws = s.draws + 1 := rfl
@[simp] theorem State.scrambleRegion_host (s : State) (g : Region) : (s.scrambleRegion g).host = s.host := rfl
@[simp] theorem State.scrambleRegion_turns (s : State) (g : Region) : (s.scrambleRegion g).turns = s.turns := rfl
@[simp] theorem State.scrambleRegion_reply (s : State) (g : Region) : (s.scrambleRegion g).reply = s.reply := rfl

/-! ### `State.clearBrx` -/

@[simp] theorem State.clearBrx_platform (s : State) : s.clearBrx.platform = s.platform := rfl
@[simp] theorem State.clearBrx_status (s : State) : s.clearBrx.status = Status.afterReset := rfl
@[simp] theorem State.clearBrx_cmd (s : State) : s.clearBrx.cmd = 0 := rfl
@[simp] theorem State.clearBrx_din (s : State) : s.clearBrx.din = 0 := rfl
@[simp] theorem State.clearBrx_dout (s : State) : s.clearBrx.dout = 0 := rfl
@[simp] theorem State.clearBrx_src (s : State) : s.clearBrx.src = 0 := rfl
@[simp] theorem State.clearBrx_dst (s : State) : s.clearBrx.dst = 0 := rfl
@[simp] theorem State.clearBrx_len (s : State) : s.clearBrx.len = 0 := rfl
@[simp] theorem State.clearBrx_cur (s : State) : s.clearBrx.cur = Latched.afterReset := rfl
@[simp] theorem State.clearBrx_mem (s : State) : s.clearBrx.mem = s.mem := rfl
@[simp] theorem State.clearBrx_resetAsserted (s : State) : s.clearBrx.resetAsserted = s.resetAsserted := rfl
@[simp] theorem State.clearBrx_raced (s : State) : s.clearBrx.raced = false := rfl
@[simp] theorem State.clearBrx_unseen (s : State) : s.clearBrx.unseen = s.unseen := rfl
@[simp] theorem State.clearBrx_draws (s : State) : s.clearBrx.draws = s.draws := rfl
@[simp] theorem State.clearBrx_host (s : State) : s.clearBrx.host = s.host := rfl
@[simp] theorem State.clearBrx_turns (s : State) : s.clearBrx.turns = s.turns := rfl
@[simp] theorem State.clearBrx_reply (s : State) : s.clearBrx.reply = s.reply := rfl

end Sys2Proof.Machine
end

