-- ==== Sys2Proof/Laws/Ops.lean ====
section
/-! SUPPORT. One lemma per shared operation that says once what it can do: the platform's answers, ownership, the race
operations, the ends of a command, the window, the agents' accesses. -/

namespace Sys2Proof.Machine

/-! ### Address bits -/

theorem memSize_pos (p : Config.Platform) : 0 < memSize p := Nat.two_pow_pos _

theorem memSize_le (p : Config.Platform) : memSize p ≤ 2 ^ 64 := by
  have h : addrW p ≤ 64 := p.addrWPred.isLt
  exact Nat.pow_le_pow_right (by norm_num) h

theorem addrBits_toNat (p : Config.Platform) (v : Word) : (addrBits p v).toNat = v.toNat % memSize p := by
  have h1 := Nat.mod_lt v.toNat (memSize_pos p)
  have h2 := memSize_le p
  rw [addrBits, BitVec.toNat_ofNat, Nat.mod_eq_of_lt (by omega)]

/-- An address register holds `ADDR_W` bits (10_state R38). -/
theorem addrBits_lt (p : Config.Platform) (v : Word) : (addrBits p v).toNat < memSize p := by
  rw [addrBits_toNat]
  exact Nat.mod_lt _ (memSize_pos p)

theorem addrBits_getLsbD (p : Config.Platform) (v : Word) (k : Nat) :
    (addrBits p v).getLsbD k = (decide (k < addrW p) && v.getLsbD k) := by
  rw [BitVec.getLsbD, addrBits_toNat, memSize, Nat.testBit_mod_two_pow, BitVec.getLsbD]

/-! ### Ownership -/

/-- Who owns what depends on STATUS.BUSY and `cur` only. -/
theorem owns_congr {s t : State} (hb : t.status.busy = s.status.busy) (hc : t.cur = s.cur) (a : Nat) :
    owns t a = owns s a := by
  simp only [owns, hb, hc]

theorem ownsWritten_congr {s t : State} (hb : t.status.busy = s.status.busy) (hc : t.cur = s.cur) (a : Nat) :
    ownsWritten t a = ownsWritten s a := by
  simp only [ownsWritten, hb, hc]

/-- Nothing is owned while no command is in flight. -/
theorem owns_idle {s : State} (h : s.status.busy = false) (a : Nat) : owns s a = false := by simp [owns, h]

/-- An owned byte means a GBRE command in flight. -/
theorem owns_gbre {s : State} {a : Nat} (h : owns s a = true) :
    s.status.busy = true ∧
      ((∃ sp, decode s.cur.cmd = .ok (.revip sp)) ∨ ∃ sp dp, decode s.cur.cmd = .ok (.revcp sp dp)) := by
  simp only [owns, Bool.and_eq_true] at h
  refine ⟨h.1, ?_⟩
  have h2 := h.2
  cases hd : decode s.cur.cmd with
  | error e => simp [hd] at h2
  | ok i =>
    cases i with
    | revip sp => exact Or.inl ⟨sp, rfl⟩
    | revcp sp dp => exact Or.inr ⟨sp, dp, rfl⟩
    | swap32 | swap64 | frev32 | frev64 => simp [hd, inputRegion, writtenRegion] at h2

/-! ### Races -/

/-- What a racing store changes: memory (its byte at most), the draw counter and the race mark. -/
theorem raceStore_eq (s : State) (c : Host.Cell) :
    s.raceStore c = { s with mem := (s.raceStore c).mem, draws := s.draws + 1, raced := true } := rfl

theorem raceStore_wf {s : State} (h : s.mem.wf = true) (c : Host.Cell) : (s.raceStore c).mem.wf = true := by
  simp only [State.raceStore_mem]
  split
  · exact h
  · exact Memory.write_wf h _ _

theorem raceStore_read {s : State} (h : s.mem.wf = true) (c : Host.Cell) (a : Nat) (ha : a ≠ c.1) :
    (s.raceStore c).mem.read a = s.mem.read a := by
  simp only [State.raceStore_mem]
  split
  · rfl
  · rw [Memory.read_write h, if_neg ha]

/-- A run of racing stores: everything but memory, the draw counter and the race mark is as before; the mark is set if
there was a store; the memory stays canonical and changes only at the stores' addresses. -/
theorem foldl_raceStore (l : List Host.Cell) : ∀ s : State,
    (l.foldl State.raceStore s) =
      { s with mem := (l.foldl State.raceStore s).mem, draws := (l.foldl State.raceStore s).draws,
               raced := s.raced || !l.isEmpty } ∧
    (s.mem.wf = true → (l.foldl State.raceStore s).mem.wf = true ∧
      ∀ a, (∀ c ∈ l, c.1 ≠ a) → (l.foldl State.raceStore s).mem.read a = s.mem.read a) := by
  induction l with
  | nil => intro s; simp
  | cons c l ih =>
    intro s
    obtain ⟨h1, h2⟩ := ih (s.raceStore c)
    refine ⟨?_, fun hw => ?_⟩
    · simp only [List.foldl_cons]
      rw [h1]
      simp [State.raceStore]
    · obtain ⟨h3, h4⟩ := h2 (raceStore_wf hw c)
      refine ⟨by simpa using h3, fun a ha => ?_⟩
      simp only [List.foldl_cons]
      rw [h4 a (fun d hd => ha d (by simp [hd])), raceStore_read hw c a (fun e => ha c (by simp) e.symm)]

/-- Accept (10_state R41, 20_memory R59): the latched registers and `cur`; the pending stores to owned bytes are gone and
made the race; the memory changed only at their addresses. -/
theorem accept_eq (s : State) (v : Word) :
    s.accept v = { s.latch v with
      mem := (s.accept v).mem, draws := (s.accept v).draws
      unseen := s.unseen.filter (fun c => !owns (s.latch v) c.1)
      raced := s.unseen.any (fun c => owns (s.latch v) c.1) } := by
  have h := (foldl_raceStore (s.unseen.filter (fun c => owns (s.latch v) c.1))
    { s.latch v with unseen := s.unseen.filter (fun c => !owns (s.latch v) c.1) }).1
  have hr : (!(s.unseen.filter (fun c => owns (s.latch v) c.1)).isEmpty) =
      s.unseen.any (fun c => owns (s.latch v) c.1) := by
    rw [Bool.eq_iff_iff]
    simp [List.filter_eq_nil_iff, List.any_eq_true]
  unfold State.accept State.raceUnseen
  rw [State.latch_unseen]
  rw [h, State.latch_raced, Bool.false_or, hr]

/-- Accept keeps the memory canonical and changes it only at the addresses of pending stores to owned bytes. -/
theorem accept_mem {s : State} (hw : s.mem.wf = true) (v : Word) :
    (s.accept v).mem.wf = true ∧
      ∀ a, (∀ c ∈ s.unseen, owns (s.latch v) c.1 = true → c.1 ≠ a) → (s.accept v).mem.read a = s.mem.read a := by
  obtain ⟨h1, h2⟩ := (foldl_raceStore (s.unseen.filter (fun c => owns (s.latch v) c.1))
    { s.latch v with unseen := s.unseen.filter (fun c => !owns (s.latch v) c.1) }).2 hw
  refine ⟨h1, fun a ha => ?_⟩
  refine h2 a (fun c hc => ?_)
  rw [List.mem_filter] at hc
  exact ha c hc.1 hc.2

/-- Without a pending store to an owned byte, Accept changes what 10_state R41 lists. -/
theorem accept_eq_latch {s : State} {v : Word} (h : ∀ c ∈ s.unseen, owns (s.latch v) c.1 = false) :
    s.accept v = s.latch v := by
  have h1 : s.unseen.filter (fun c => owns (s.latch v) c.1) = [] := by
    rw [List.filter_eq_nil_iff]
    intro c hc
    simp [h c hc]
  have h2 : s.unseen.filter (fun c => !owns (s.latch v) c.1) = s.unseen := by
    rw [List.filter_eq_self]
    intro c hc
    simp [h c hc]
  unfold State.accept State.raceUnseen
  rw [State.latch_unseen, h1, h2]
  rfl

/-! ### The ends of a command -/

/-- What the race's settlement changes. -/
theorem settleRace_eq (s : State) (r : Region) :
    s.settleRace r = { s with mem := (s.settleRace r).mem, draws := (s.settleRace r).draws, raced := false } := by
  unfold State.settleRace
  split
  · rfl
  · rename_i h
    rw [Bool.not_eq_true] at h
    conv_lhs => rw [show s = { s with raced := false } by rw [← h]]

/-- The memory after the race's settlement: free bytes in the clipped region if there was a race. -/
theorem settleRace_read {s : State} (h : s.mem.wf = true) (r : Region) (a : Nat) :
    (s.settleRace r).mem.read a =
      if s.raced = true ∧ InRegion (r.clip s.platform).base (r.clip s.platform).len a then Config.anyByte s.draws a
      else s.mem.read a := by
  unfold State.settleRace
  split
  · rename_i hr
    simp [hr, State.scrambleRegion, scramble_read h, InRegion]
  · rename_i hr
    simp [hr]

theorem settleRace_mem (s : State) (r : Region) : (s.settleRace r).mem =
    if s.raced then scramble s.mem s.draws (r.clip s.platform).base (r.clip s.platform).len else s.mem := by
  unfold State.settleRace
  split <;> rfl

theorem settleRace_draws (s : State) (r : Region) :
    (s.settleRace r).draws = if s.raced then s.draws + 1 else s.draws := by
  unfold State.settleRace
  split <;> rfl

theorem settleRace_wf {s : State} (h : s.mem.wf = true) (r : Region) : (s.settleRace r).mem.wf = true := by
  unfold State.settleRace
  split
  · exact scramble_wf h _ _ _
  · exact h

@[simp] theorem settleRace_unraced {s : State} (h : s.raced = false) (r : Region) : s.settleRace r = s := by
  simp [State.settleRace, h]

/-- The clipped region is the part of the region that exists. -/
theorem inRegion_clip (p : Config.Platform) (r : Region) (a : Nat) :
    InRegion (r.clip p).base (r.clip p).len a ↔ InRegion r.base r.len a ∧ a < memSize p := by
  simp only [InRegion, Region.clip]
  omega

/-- The one next state `finish` answers. -/
theorem finish_eq (s : State) (w : Region) (err : ErrCode) :
    finish s w err = .next { s with
      mem := (s.settleRace w).mem, draws := (s.settleRace w).draws, raced := false
      status := completedStatus s err } := by
  unfold finish
  rw [settleRace_eq]
  rfl

theorem finish_unraced {s : State} (h : s.raced = false) (w : Region) (err : ErrCode) :
    finish s w err = .next (s.complete err) := by
  rw [finish, settleRace_unraced h]

/-! ### The buffer commands -/

/-- The paths of REVIP (41_buffer_reversal R122), each with the condition that leads to it and its answer. -/
inductive RevipPath (s : State) (sp : Bool) : Result → Prop where
  | noop (h : sp = false ∨ s.cur.len.toNat < 2) : RevipPath s sp (finish s (writtenRegion (.revip sp) s.cur) .ok)
  | range (hsp : sp = true) (hn : 2 ≤ s.cur.len.toNat)
      (h : memSize s.platform < s.cur.src.toNat + s.cur.len.toNat) :
      RevipPath s sp (finish s (writtenRegion (.revip sp) s.cur) .range)
  | memFault (hsp : sp = true) (hn : 2 ≤ s.cur.len.toNat)
      (hin : s.cur.src.toNat + s.cur.len.toNat ≤ memSize s.platform)
      (h : ∃ a, InPairSet s.cur.src.toNat s.cur.len.toNat a ∧
        (admits s.platform .read a = false ∨ admits s.platform .write a = false)) :
      RevipPath s sp (finish s (writtenRegion (.revip sp) s.cur) .memFault)
  | sideEffect (hsp : sp = true) (hn : 2 ≤ s.cur.len.toNat)
      (hin : s.cur.src.toNat + s.cur.len.toNat ≤ memSize s.platform)
      (hadm : ∀ a, InPairSet s.cur.src.toNat s.cur.len.toNat a →
        admits s.platform .read a = true ∧ admits s.platform .write a = true)
      (h : ∃ a, InPairSet s.cur.src.toNat s.cur.len.toNat a ∧ hasSideEffects s.platform a = true) :
      RevipPath s sp (.refused .sideEffectLocation)
  | reverse (hsp : sp = true) (hn : 2 ≤ s.cur.len.toNat)
      (hin : s.cur.src.toNat + s.cur.len.toNat ≤ memSize s.platform)
      (hadm : ∀ a, InPairSet s.cur.src.toNat s.cur.len.toNat a →
        admits s.platform .read a = true ∧ admits s.platform .write a = true)
      (h : ∀ a, InPairSet s.cur.src.toNat s.cur.len.toNat a → hasSideEffects s.platform a = false) :
      RevipPath s sp (finish (s.setMem (swapPairs s.mem s.cur.src.toNat s.cur.len.toNat (s.cur.len.toNat / 2)))
        (writtenRegion (.revip sp) s.cur) .ok)

/-- The paths of REVCP (41_buffer_reversal R124), each with the condition that leads to it and its answer. -/
inductive RevcpPath (s : State) (sp dp : Bool) : Result → Prop where
  | noop (h : sp = false ∨ s.cur.len.toNat = 0) :
      RevcpPath s sp dp (finish s (writtenRegion (.revcp sp dp) s.cur) .ok)
  | outAbsent (hsp : sp = true) (hn : 1 ≤ s.cur.len.toNat) (h : dp = false) :
      RevcpPath s sp dp (finish s (writtenRegion (.revcp sp dp) s.cur) .outAbsent)
  | range (hsp : sp = true) (hn : 1 ≤ s.cur.len.toNat) (hdp : dp = true)
      (h : memSize s.platform < s.cur.src.toNat + s.cur.len.toNat ∨
        memSize s.platform < s.cur.dst.toNat + s.cur.len.toNat) :
      RevcpPath s sp dp (finish s (writtenRegion (.revcp sp dp) s.cur) .range)
  | aliased (hsp : sp = true) (hn : 1 ≤ s.cur.len.toNat) (hdp : dp = true)
      (hs : s.cur.src.toNat + s.cur.len.toNat ≤ memSize s.platform)
      (hd : s.cur.dst.toNat + s.cur.len.toNat ≤ memSize s.platform)
      (h : s.cur.src.toNat < s.cur.dst.toNat + s.cur.len.toNat ∧ s.cur.dst.toNat < s.cur.src.toNat + s.cur.len.toNat) :
      RevcpPath s sp dp (finish s (writtenRegion (.revcp sp dp) s.cur) .aliased)
  | memFault (hsp : sp = true) (hn : 1 ≤ s.cur.len.toNat) (hdp : dp = true)
      (hs : s.cur.src.toNat + s.cur.len.toNat ≤ memSize s.platform)
      (hd : s.cur.dst.toNat + s.cur.len.toNat ≤ memSize s.platform)
      (hov : ¬(s.cur.src.toNat < s.cur.dst.toNat + s.cur.len.toNat ∧
        s.cur.dst.toNat < s.cur.src.toNat + s.cur.len.toNat))
      (h : ∃ a, (InRegion s.cur.src.toNat s.cur.len.toNat a ∧ admits s.platform .read a = false) ∨
        (InRegion s.cur.dst.toNat s.cur.len.toNat a ∧ admits s.platform .write a = false)) :
      RevcpPath s sp dp (finish s (writtenRegion (.revcp sp dp) s.cur) .memFault)
  | sideEffect (hsp : sp = true) (hn : 1 ≤ s.cur.len.toNat) (hdp : dp = true)
      (hs : s.cur.src.toNat + s.cur.len.toNat ≤ memSize s.platform)
      (hd : s.cur.dst.toNat + s.cur.len.toNat ≤ memSize s.platform)
      (hov : ¬(s.cur.src.toNat < s.cur.dst.toNat + s.cur.len.toNat ∧
        s.cur.dst.toNat < s.cur.src.toNat + s.cur.len.toNat))
      (hr : ∀ a, InRegion s.cur.src.toNat s.cur.len.toNat a → admits s.platform .read a = true)
      (hw : ∀ a, InRegion s.cur.dst.toNat s.cur.len.toNat a → admits s.platform .write a = true)
      (h : ∃ a, (InRegion s.cur.src.toNat s.cur.len.toNat a ∨ InRegion s.cur.dst.toNat s.cur.len.toNat a) ∧
        hasSideEffects s.platform a = true) :
      RevcpPath s sp dp (.refused .sideEffectLocation)
  | copy (hsp : sp = true) (hn : 1 ≤ s.cur.len.toNat) (hdp : dp = true)
      (hs : s.cur.src.toNat + s.cur.len.toNat ≤ memSize s.platform)
      (hd : s.cur.dst.toNat + s.cur.len.toNat ≤ memSize s.platform)
      (hov : ¬(s.cur.src.toNat < s.cur.dst.toNat + s.cur.len.toNat ∧
        s.cur.dst.toNat < s.cur.src.toNat + s.cur.len.toNat))
      (hr : ∀ a, InRegion s.cur.src.toNat s.cur.len.toNat a → admits s.platform .read a = true)
      (hw : ∀ a, InRegion s.cur.dst.toNat s.cur.len.toNat a → admits s.platform .write a = true)
      (h : ∀ a, InRegion s.cur.src.toNat s.cur.len.toNat a ∨ InRegion s.cur.dst.toNat s.cur.len.toNat a →
        hasSideEffects s.platform a = false) :
      RevcpPath s sp dp
        (finish (s.setMem (copyReversed s.mem s.cur.src.toNat s.cur.dst.toNat s.cur.len.toNat s.cur.len.toNat))
          (writtenRegion (.revcp sp dp) s.cur) .ok)

theorem revipAdmitted_iff (p : Config.Platform) (src n : Nat) : revipAdmitted p src n = true ↔
    ∀ a, InPairSet src n a → admits p .read a = true ∧ admits p .write a = true := by
  simp only [revipAdmitted, Bool.and_eq_true, allPairSet_iff]
  exact ⟨fun h a ha => ⟨h.1 a ha, h.2 a ha⟩, fun h => ⟨fun a ha => (h a ha).1, fun a ha => (h a ha).2⟩⟩

theorem revipAdmitted_eq_false_iff (p : Config.Platform) (src n : Nat) : revipAdmitted p src n = false ↔
    ∃ a, InPairSet src n a ∧ (admits p .read a = false ∨ admits p .write a = false) := by
  rw [← Bool.not_eq_true, revipAdmitted_iff]
  push Not
  simp only [← Bool.not_eq_true]
  refine exists_congr (fun a => and_congr_right (fun _ => ?_))
  tauto

theorem revipSideEffect_iff (p : Config.Platform) (src n : Nat) : revipSideEffect p src n = true ↔
    ∃ a, InPairSet src n a ∧ hasSideEffects p a = true := by
  rw [revipSideEffect, Bool.not_eq_true', ← Bool.not_eq_true, allPairSet_iff]
  push Not
  simp

theorem revcpAdmitted_iff (p : Config.Platform) (src dst n : Nat) : revcpAdmitted p src dst n = true ↔
    (∀ a, InRegion src n a → admits p .read a = true) ∧ ∀ a, InRegion dst n a → admits p .write a = true := by
  simp only [revcpAdmitted, Bool.and_eq_true, allRegion_iff]

theorem revcpAdmitted_eq_false_iff (p : Config.Platform) (src dst n : Nat) : revcpAdmitted p src dst n = false ↔
    ∃ a, (InRegion src n a ∧ admits p .read a = false) ∨ (InRegion dst n a ∧ admits p .write a = false) := by
  rw [← Bool.not_eq_true, revcpAdmitted_iff, not_and_or]
  push Not
  simp only [← Bool.not_eq_true, exists_or]

theorem revcpSideEffect_iff (p : Config.Platform) (src dst n : Nat) : revcpSideEffect p src dst n = true ↔
    ∃ a, (InRegion src n a ∨ InRegion dst n a) ∧ hasSideEffects p a = true := by
  rw [revcpSideEffect, Bool.not_eq_true', ← Bool.not_eq_true, Bool.and_eq_true, allRegion_iff, allRegion_iff, not_and_or]
  push Not
  simp [or_and_right, exists_or]

theorem overlap_iff (src dst n : Nat) : overlap src dst n = true ↔ src < dst + n ∧ dst < src + n := by
  simp [overlap]

/-- REVIP answers what one of its paths answers. -/
theorem execRevip_path (s : State) (sp : Bool) : RevipPath s sp (execRevip sp s) := by
  simp only [execRevip, byteCount, srcAddr]
  by_cases hsp : sp = false
  · rw [if_pos hsp]
    exact .noop (Or.inl hsp)
  rw [if_neg hsp]
  have hsp : sp = true := by simpa using hsp
  by_cases hn : s.cur.len.toNat < 2
  · rw [if_pos hn]
    exact .noop (Or.inr hn)
  rw [if_neg hn]
  have hn : 2 ≤ s.cur.len.toNat := by omega
  by_cases hin : inRange s.platform s.cur.src.toNat s.cur.len.toNat = false
  · rw [if_pos hin]
    exact .range hsp hn (by simpa [inRange] using hin)
  rw [if_neg hin]
  have hin : s.cur.src.toNat + s.cur.len.toNat ≤ memSize s.platform := by simpa [inRange] using hin
  by_cases hadm : revipAdmitted s.platform s.cur.src.toNat s.cur.len.toNat = false
  · rw [if_pos hadm]
    exact .memFault hsp hn hin ((revipAdmitted_eq_false_iff ..).mp hadm)
  rw [if_neg hadm]
  have hadm := (revipAdmitted_iff ..).mp (by simpa using hadm)
  by_cases h : revipSideEffect s.platform s.cur.src.toNat s.cur.len.toNat = true
  · rw [if_pos h]
    exact .sideEffect hsp hn hin hadm ((revipSideEffect_iff ..).mp h)
  · rw [if_neg h]
    rw [revipSideEffect_iff] at h
    exact .reverse hsp hn hin hadm (fun a ha => by
      rw [← Bool.not_eq_true]
      exact fun hs => h ⟨a, ha, hs⟩)

/-- REVCP answers what one of its paths answers. -/
theorem execRevcp_path (s : State) (sp dp : Bool) : RevcpPath s sp dp (execRevcp sp dp s) := by
  simp only [execRevcp, byteCount, srcAddr, dstAddr]
  by_cases hsp : sp = false
  · rw [if_pos hsp]
    exact .noop (Or.inl hsp)
  rw [if_neg hsp]
  have hsp : sp = true := by simpa using hsp
  by_cases hn : s.cur.len.toNat = 0
  · rw [if_pos hn]
    exact .noop (Or.inr hn)
  rw [if_neg hn]
  have hn : 1 ≤ s.cur.len.toNat := by omega
  by_cases hdp : dp = false
  · rw [if_pos hdp]
    exact .outAbsent hsp hn hdp
  rw [if_neg hdp]
  have hdp : dp = true := by simpa using hdp
  by_cases hin : (inRange s.platform s.cur.src.toNat s.cur.len.toNat &&
      inRange s.platform s.cur.dst.toNat s.cur.len.toNat) = false
  · rw [if_pos hin]
    rw [Bool.and_eq_false_iff] at hin
    exact .range hsp hn hdp (hin.imp (by simp [inRange]) (by simp [inRange]))
  rw [if_neg hin, if_congr (overlap_iff ..) rfl rfl]
  rw [Bool.not_eq_false, Bool.and_eq_true] at hin
  have hs : s.cur.src.toNat + s.cur.len.toNat ≤ memSize s.platform := by simpa [inRange] using hin.1
  have hd : s.cur.dst.toNat + s.cur.len.toNat ≤ memSize s.platform := by simpa [inRange] using hin.2
  by_cases hov : s.cur.src.toNat < s.cur.dst.toNat + s.cur.len.toNat ∧
      s.cur.dst.toNat < s.cur.src.toNat + s.cur.len.toNat
  · rw [if_pos hov]
    exact .aliased hsp hn hdp hs hd hov
  rw [if_neg hov]
  by_cases hadm : revcpAdmitted s.platform s.cur.src.toNat s.cur.dst.toNat s.cur.len.toNat = false
  · rw [if_pos hadm]
    exact .memFault hsp hn hdp hs hd hov ((revcpAdmitted_eq_false_iff ..).mp hadm)
  rw [if_neg hadm]
  obtain ⟨hr, hw⟩ := (revcpAdmitted_iff ..).mp (by simpa using hadm)
  by_cases h : revcpSideEffect s.platform s.cur.src.toNat s.cur.dst.toNat s.cur.len.toNat = true
  · rw [if_pos h]
    exact .sideEffect hsp hn hdp hs hd hov hr hw ((revcpSideEffect_iff ..).mp h)
  · rw [if_neg h]
    rw [revcpSideEffect_iff] at h
    exact .copy hsp hn hdp hs hd hov hr hw (fun a ha => by
      rw [← Bool.not_eq_true]
      exact fun hs => h ⟨a, ha, hs⟩)

end Sys2Proof.Machine
end

