-- ==== Sys2Proof/Laws/Window.lean ====
section
/-! SUPPORT. Bytes and words, the fields of a word, and the window's accesses: one lemma each for what they answer. -/

namespace Sys2Proof

/-! ### Bytes and words -/

theorem byteOf_getLsbD {w : Nat} (v : BitVec w) (k j : Nat) :
    (byteOf v k).getLsbD j = (decide (j < 8) && v.getLsbD (8 * k + j)) := by
  simp [byteOf, BitVec.getLsbD_extractLsb']

/-- Bit `i` of the assembled word is bit `i % 8` of lane `i / 8` (10_state R25). -/
theorem wordOfBytes_getLsbD : ∀ (bs : List Byte) (i : Nat),
    (wordOfBytes bs).getLsbD i = (decide (i < 64) && (bs[i / 8]?.getD 0).getLsbD (i % 8))
  | [], i => by simp [wordOfBytes]
  | b :: bs, i => by
    rw [wordOfBytes, BitVec.getLsbD_or, BitVec.getLsbD_setWidth, BitVec.getLsbD_shiftLeft, wordOfBytes_getLsbD bs]
    by_cases h8 : i < 8
    · have h0 : i / 8 = 0 := by omega
      have h1 : i % 8 = i := by omega
      simp [h0, h1, h8]
    · have h0 : i / 8 = (i - 8) / 8 + 1 := by omega
      have h1 : (i - 8) % 8 = i % 8 := by omega
      by_cases h64 : i < 64
      · have : i - 8 < 64 := by omega
        simp [h0, h1, h8, h64, this, BitVec.getLsbD_of_ge b i (by omega)]
      · simp [h64]

theorem bytesOfWord_length (v : Word) : (bytesOfWord v).length = 8 := by simp [bytesOfWord]

theorem bytesOfWord_getElem? (v : Word) {k : Nat} (h : k < 8) : (bytesOfWord v)[k]? = some (byteOf v k) := by
  simp [bytesOfWord, List.getElem?_range h]

/-- The bus carries a register value unchanged (10_state R25). -/
@[simp] theorem wordOfBytes_bytesOfWord (v : Word) : wordOfBytes (bytesOfWord v) = v := by
  refine BitVec.eq_of_getLsbD_eq (fun i hi => ?_)
  rw [wordOfBytes_getLsbD, bytesOfWord_getElem? v (show i / 8 < 8 by omega)]
  have h1 : i % 8 < 8 := by omega
  have h2 : 8 * (i / 8) + i % 8 = i := by omega
  simp only [Option.getD_some, byteOf_getLsbD, hi, h1, h2, decide_true, Bool.true_and]

/-- A CMD value is its fields (30_encoding R70). -/
theorem fieldsOf_injective {v w : Word} (h : fieldsOf v = fieldsOf w) : v = w := by
  simp only [fieldsOf, Fields.mk.injEq] at h
  obtain ⟨h1, h2, h3, h4, h5, h6⟩ := h
  refine BitVec.eq_of_getLsbD_eq (fun i hi => ?_)
  have g1 := congrArg (fun b => b.getLsbD i) h1
  have g2 := congrArg (fun b => b.getLsbD (i - 4)) h2
  have g5 := congrArg (fun b => b.getLsbD (i - 10)) h5
  have g6 := congrArg (fun b => b.getLsbD (i - 32)) h6
  simp only [BitVec.getLsbD_extractLsb'] at g1 g2 g5 g6
  by_cases c1 : i < 4
  · simpa [c1] using g1
  by_cases c2 : i < 8
  · simpa [show i - 4 < 4 by omega, show 4 + (i - 4) = i by omega] using g2
  by_cases c3 : i = 8
  · simpa [c3] using h3
  by_cases c4 : i = 9
  · simpa [c4] using h4
  by_cases c5 : i < 32
  · simpa [show i - 10 < 22 by omega, show 10 + (i - 10) = i by omega] using g5
  · simpa [show i - 32 < 32 by omega, show 32 + (i - 32) = i by omega] using g6

end Sys2Proof

namespace Sys2Proof.Machine

/-! ### The window -/

theorem window_aligned (p : Config.Platform) {off : Nat} (h : off < 0x100) (h8 : off % 8 = 0) :
    touchesWindow p (brxBase p + off) 8 = true ∧ fullAligned p (brxBase p + off) 8 = true := by
  simp [touchesWindow, fullAligned, windowSize, h8]
  omega

/-- An aligned 64-bit read in the window (10_state R21). -/
theorem busRead_aligned (s : State) {off : Nat} (h : off < 0x100) (h8 : off % 8 = 0) :
    busRead s (brxBase s.platform + off) 8 = s.setReply (.data (bytesOfWord (readReg s off))) := by
  obtain ⟨h1, h2⟩ := window_aligned s.platform h h8
  simp only [busRead, h1, h2]
  simp

/-- An aligned 64-bit write in the window, out of reset (10_state R21). -/
theorem busWrite_aligned (s : State) {off : Nat} {data : List Byte} (h : off < 0x100) (h8 : off % 8 = 0)
    (hd : data.length = 8) (hr : s.resetAsserted = false) :
    busWrite s (brxBase s.platform + off) data = (writeReg s off (wordOfBytes data)).setReply .taken := by
  obtain ⟨h1, h2⟩ := window_aligned s.platform h h8
  simp only [busWrite, hd, h1, h2, hr]
  simp

/-- What a bus write can do: change the reply only, or be an aligned register write out of reset. -/
theorem busWrite_cases (s : State) (addr : Nat) (data : List Byte) :
    (∃ r, busWrite s addr data = s.setReply r) ∨
    (s.resetAsserted = false ∧ ∃ off, off < 0x100 ∧ addr = brxBase s.platform + off ∧
      busWrite s addr data = (writeReg s off (wordOfBytes data)).setReply .taken) := by
  unfold busWrite
  split
  · exact Or.inl ⟨_, rfl⟩
  next ht =>
  split
  · exact Or.inl ⟨_, rfl⟩
  next hf =>
  split
  · exact Or.inl ⟨_, rfl⟩
  next hr =>
  simp only [touchesWindow, fullAligned, windowSize, Bool.not_eq_false, Bool.and_eq_true, decide_eq_true_eq] at ht hf
  refine Or.inr ⟨by simpa using hr, addr - brxBase s.platform, by omega, by omega, rfl⟩

/-- What a register write can do (10_state R21, R23, R24, R34, R36, R38, R39). -/
theorem writeReg_cases (s : State) (off : Nat) (v : Word) :
    (off = 0x10 ∧ s.status.busy = true ∧ writeReg s off v = s.reject) ∨
    (off = 0x10 ∧ s.status.busy = false ∧ writeReg s off v = s.accept v) ∨
    writeReg s off v = { s with din := v } ∨ writeReg s off v = { s with src := addrBits s.platform v } ∨
    writeReg s off v = { s with dst := addrBits s.platform v } ∨ writeReg s off v = { s with len := v } ∨
    writeReg s off v = s := by
  unfold writeReg
  split
  · by_cases h : s.status.busy = true
    · exact Or.inl ⟨rfl, h, by simp [h]⟩
    · exact Or.inr (Or.inl ⟨rfl, by simpa using h, by simp [h]⟩)
  · exact Or.inr (Or.inr (Or.inl rfl))
  · exact Or.inr (Or.inr (Or.inr (Or.inl rfl)))
  · exact Or.inr (Or.inr (Or.inr (Or.inr (Or.inl rfl))))
  · exact Or.inr (Or.inr (Or.inr (Or.inr (Or.inr (Or.inl rfl)))))
  · exact Or.inr (Or.inr (Or.inr (Or.inr (Or.inr (Or.inr rfl)))))

/-- A bus read changes the reply only (10_state R34). -/
theorem busRead_eq (s : State) (addr bytes : Nat) : ∃ r, busRead s addr bytes = s.setReply r := by
  unfold busRead
  split
  · exact ⟨_, rfl⟩
  · split
    · exact ⟨_, rfl⟩
    · exact ⟨_, rfl⟩

end Sys2Proof.Machine
end

