-- ==== Sys2Proof/Laws/Agents.lean ====
section
/-! SUPPORT. What an access of an agent, the arrival of pending stores, and a step can do, each said once. -/

namespace Sys2Proof.Machine

/-- What an access that answers a next state can do. -/
inductive ActPath (s : State) (who : Master) (x : Action) : State → Prop where
  /-- Only the reply changes: a read, an unraced load, a write that the window does not take or ignores. -/
  | replyOnly (r : Reply) : ActPath s who x (s.setReply r)
  /-- A register write out of reset. -/
  | register (off : Nat) (data : List Byte) (hx : x = .busWrite (brxBase s.platform + off) data) (hoff : off < 0x100)
      (hr : s.resetAsserted = false) : ActPath s who x ((writeReg s off (wordOfBytes data)).setReply .taken)
  /-- A racing load. -/
  | racingLoad (a : Nat) (ho : owns s a = true) (r : Reply) :
      ActPath s who x { s with reply := r, draws := s.draws + 1, raced := true }
  /-- A racing store. -/
  | racingStore (a : Nat) (b : Byte) (ha : a < memSize s.platform) (ho : owns s a = true) :
      ActPath s who x ((s.raceStore (a, b)).setReply .taken)
  /-- A host store that waits to become visible. -/
  | hostStore (a : Nat) (b : Byte) (ha : a < memSize s.platform) (ho : owns s a = false) :
      ActPath s who x { s with unseen := s.unseen ++ [(a, b)], reply := .taken }
  /-- Another master's store. -/
  | otherStore (a : Nat) (b : Byte) (ha : a < memSize s.platform) (ho : owns s a = false) :
      ActPath s who x ((s.setMem (s.mem.write a b)).setReply .taken)
  /-- The host's fence. -/
  | hostFence : ActPath s who x (s.makeAllVisible.setReply .taken)

/-- An access that answers a next state answers what one of its paths answers. -/
theorem act_path {s t : State} {who : Master} {x : Action} (h : act s who x = .next t) : ActPath s who x t := by
  cases x with
  | busRead addr bytes =>
    obtain ⟨r, hr⟩ := busRead_eq s addr bytes
    simp only [act, hr, Host.Outcome.next.injEq] at h
    exact h ▸ .replyOnly r
  | poll =>
    obtain ⟨r, hr⟩ := busRead_eq s (brxBase s.platform + 0x08) 8
    simp only [act, hr, Host.Outcome.next.injEq] at h
    exact h ▸ .replyOnly r
  | busWrite addr data =>
    simp only [act, Host.Outcome.next.injEq] at h
    rcases busWrite_cases s addr data with ⟨r, hr⟩ | ⟨hr, off, hoff, haddr, hw⟩
    · rw [hr] at h
      exact h ▸ .replyOnly r
    · rw [hw] at h
      exact h ▸ .register off data (by rw [haddr]) hoff hr
  | load a =>
    simp only [act, loadByte] at h
    by_cases h1 : memSize s.platform ≤ a
    · simp [h1] at h
    by_cases h2 : hasSideEffects s.platform a = true
    · simp [h1, h2] at h
    by_cases h3 : owns s a = true
    · simp only [if_neg h1, if_neg h2, if_pos h3, Host.Outcome.next.injEq] at h
      exact h ▸ .racingLoad a h3 _
    · simp only [if_neg h1, if_neg h2, if_neg h3, Host.Outcome.next.injEq] at h
      exact h ▸ .replyOnly _
  | store a b =>
    simp only [act, storeByte] at h
    by_cases h1 : memSize s.platform ≤ a
    · simp [h1] at h
    by_cases h2 : hasSideEffects s.platform a = true
    · simp [h1, h2] at h
    by_cases h3 : owns s a = true
    · simp only [if_neg h1, if_neg h2, if_pos h3, Host.Outcome.next.injEq] at h
      exact h ▸ .racingStore a b (by omega) h3
    · simp only [if_neg h1, if_neg h2, if_neg h3] at h
      rw [Bool.not_eq_true] at h3
      cases who with
      | host =>
        simp only [Host.Outcome.next.injEq] at h
        exact h ▸ .hostStore a b (by omega) h3
      | other =>
        simp only [Host.Outcome.next.injEq] at h
        exact h ▸ .otherStore a b (by omega) h3
  | fence =>
    cases who with
    | host =>
      simp only [act, Host.Outcome.next.injEq] at h
      exact h ▸ .hostFence
    | other =>
      simp only [act, Host.Outcome.next.injEq] at h
      exact h ▸ .replyOnly _

/-! ### Pending stores -/

/-- One arriving store changes memory and, in a race, the draw counter and the race mark. -/
theorem landStore_eq (s : State) (c : Host.Cell) :
    s.landStore c = { s with
      mem := (s.landStore c).mem, draws := (s.landStore c).draws, raced := s.raced || owns s c.1 } := by
  unfold State.landStore
  cases h : owns s c.1 with
  | true => simp [State.raceStore]
  | false => simp [State.setMem]

/-- An arriving store to a byte no command owns is an ordinary write. -/
theorem landStore_free {s : State} {c : Host.Cell} (h : owns s c.1 = false) :
    s.landStore c = s.setMem (s.mem.write c.1 c.2) := by simp [State.landStore, h]

/-- A run of arriving stores changes memory and, in a race, the draw counter and the race mark. -/
theorem foldl_landStore_eq (l : List Host.Cell) : ∀ s : State,
    l.foldl State.landStore s = { s with
      mem := (l.foldl State.landStore s).mem, draws := (l.foldl State.landStore s).draws
      raced := s.raced || l.any (fun c => owns s c.1) } := by
  induction l with
  | nil => intro s; simp
  | cons c l ih =>
    intro s
    have hr : ((s.landStore c).raced || l.any (fun d => owns (s.landStore c) d.1)) =
        (s.raced || (c :: l).any (fun d => owns s d.1)) := by
      rw [landStore_eq]
      simp only [List.any_cons, Bool.or_assoc]
      rfl
    rw [List.foldl_cons, ih (s.landStore c), hr]
    generalize (l.foldl State.landStore (s.landStore c)).mem = m
    generalize (l.foldl State.landStore (s.landStore c)).draws = d
    rw [landStore_eq s c]

/-- A run of arriving stores to bytes no command owns is a run of writes. -/
theorem foldl_landStore_free : ∀ (l : List Host.Cell) (s : State), (∀ c ∈ l, owns s c.1 = false) →
    l.foldl State.landStore s = s.setMem (l.foldl (fun m c => m.write c.1 c.2) s.mem)
  | [], _, _ => rfl
  | c :: l, s, h => by
    rw [List.foldl_cons, landStore_free (h c (by simp)), foldl_landStore_free l]
    · rfl
    · exact fun d hd => h d (by simp [hd])

/-- A run of writes keeps a memory canonical and changes it only at the writes' addresses. -/
theorem foldl_write : ∀ (l : List Host.Cell) {m : Memory}, m.wf = true →
    (l.foldl (fun m c => m.write c.1 c.2) m).wf = true ∧
      ∀ a, (∀ c ∈ l, c.1 ≠ a) → (l.foldl (fun m c => m.write c.1 c.2) m).read a = m.read a
  | [], _, h => ⟨h, fun _ _ => rfl⟩
  | c :: l, m, h => by
    obtain ⟨h1, h2⟩ := foldl_write l (Memory.write_wf h c.1 c.2)
    refine ⟨h1, fun a ha => ?_⟩
    rw [List.foldl_cons, h2 a (fun d hd => ha d (by simp [hd])), Memory.read_write h, if_neg (fun e => ha c (by simp) e.symm)]

/-- What pending stores say of an address is what the ones to it say. -/
theorem pendingByte_filter (p : Nat → Bool) {a : Nat} (ha : p a = true) : ∀ l : List Host.Cell,
    pendingByte (l.filter (fun c => p c.1)) a = pendingByte l a
  | [] => rfl
  | c :: l => by
    have ih := pendingByte_filter p ha l
    by_cases hc : p c.1 = true
    · rw [List.filter_cons_of_pos (by simpa using hc), pendingByte, pendingByte, ih]
    · have hne : c.1 ≠ a := fun e => hc (e ▸ ha)
      rw [List.filter_cons_of_neg (by simpa using hc), ih, pendingByte, if_neg hne]
      cases pendingByte l a <;> rfl

/-- The newest store decides. -/
theorem pendingByte_append (a : Nat) (b : Byte) : ∀ l : List Host.Cell, pendingByte (l ++ [(a, b)]) a = some b
  | [] => by simp [pendingByte]
  | c :: l => by rw [List.cons_append, pendingByte, pendingByte_append a b l]

/-- After a run of writes each address holds the newest byte written to it, or what it held. -/
theorem foldl_write_read : ∀ (l : List Host.Cell) {m : Memory}, m.wf = true → ∀ a,
    (l.foldl (fun m c => m.write c.1 c.2) m).read a = (pendingByte l a).getD (m.read a)
  | [], _, _, _ => rfl
  | c :: l, m, h, a => by
    rw [List.foldl_cons, foldl_write_read l (Memory.write_wf h _ _), Memory.read_write h, pendingByte]
    by_cases hc : c.1 = a
    · rw [if_pos hc, if_pos hc.symm]
      cases pendingByte l a <;> rfl
    · rw [if_neg hc, if_neg (fun e => hc e.symm)]
      cases pendingByte l a <;> rfl

/-! ### Runs of racing stores -/

/-- Each racing store draws once. -/
theorem foldl_raceStore_draws (l : List Host.Cell) : ∀ s : State,
    (l.foldl State.raceStore s).draws = s.draws + l.length := by
  induction l with
  | nil => intro s; rfl
  | cons c l ih =>
    intro s
    rw [List.foldl_cons, ih, State.raceStore_draws, List.length_cons]
    omega

/-- After a run of racing stores a byte that the command does not write holds the newest byte stored to it. -/
theorem foldl_raceStore_read_unwritten {a : Nat} (l : List Host.Cell) : ∀ s : State, s.mem.wf = true →
    ownsWritten s a = false →
    (l.foldl State.raceStore s).mem.read a = (pendingByte l a).getD (s.mem.read a) := by
  induction l with
  | nil => intro s _ _; rfl
  | cons c l ih =>
    intro s hw ho
    rw [List.foldl_cons, ih _ (raceStore_wf hw c) ho, pendingByte]
    by_cases hc : c.1 = a
    · have hm : (s.raceStore c).mem.read a = c.2 := by
        rw [State.raceStore_mem, hc, ho, Bool.false_and, if_neg (by decide), Memory.read_write hw, if_pos rfl]
      rw [if_pos hc, hm]
      cases pendingByte l a <;> rfl
    · rw [if_neg hc, raceStore_read hw c a (fun e => hc e.symm)]
      cases pendingByte l a <;> rfl

/-- After a run of racing stores each byte holds what it held or one of the bytes stored to it. -/
theorem foldl_raceStore_read_cases {a : Nat} (l : List Host.Cell) : ∀ s : State, s.mem.wf = true →
    (l.foldl State.raceStore s).mem.read a = s.mem.read a ∨
      ∃ c ∈ l, c.1 = a ∧ (l.foldl State.raceStore s).mem.read a = c.2 := by
  induction l with
  | nil => intro s _; exact Or.inl rfl
  | cons c l ih =>
    intro s hw
    rw [List.foldl_cons]
    rcases ih (s.raceStore c) (raceStore_wf hw c) with h | ⟨d, hd, h1, h2⟩
    · rw [h, State.raceStore_mem]
      split
      · exact Or.inl rfl
      · rw [Memory.read_write hw]
        split
        · next e => exact Or.inr ⟨c, by simp, e.symm, rfl⟩
        · exact Or.inl rfl
    · exact Or.inr ⟨d, by simp [hd], h1, h2⟩

/-! ### Steps -/

/-- What a step that answers a next state can do, from `u`, the state whose schedule has lost its head. -/
inductive StepPath (s : State) : State → Prop where
  /-- The host has no line left, or the sequencer no command. -/
  | idle (h : nextTurn s = .host ∨ (nextTurn s = .sequencer ∧ s.status.busy = false)) : StepPath s s.popTurn
  /-- The host runs its next line. -/
  | hostAct (h : nextTurn s = .host) (x : Action) (rest : List Action) (hx : s.host = x :: rest) (host : List Action)
      (t : State) (ht : ActPath { s.popTurn with host := host } .host x t) : StepPath s t
  /-- Another master makes an access. -/
  | otherAct (x : Action) (h : nextTurn s = .other x) (t : State) (ht : ActPath s.popTurn .other x t) : StepPath s t
  /-- The sequencer runs a legal command. -/
  | command (h : nextTurn s = .sequencer) (hb : s.status.busy = true) (i : Instr) (hd : decode s.cur.cmd = .ok i)
      (t : State) (ht : exec i s.popTurn = .next t) : StepPath s t
  /-- The sequencer completes an illegal command word. -/
  | illegal (h : nextTurn s = .sequencer) (hb : s.status.busy = true) (e : DecodeReject)
      (hd : decode s.cur.cmd = .error e) : StepPath s (s.popTurn.complete .illegalCmd)
  /-- A pending store arrives. -/
  | visible (h : nextTurn s = .visible) : StepPath s s.popTurn.makeVisible
  /-- Reset is asserted. -/
  | resetOn (h : nextTurn s = .resetOn) : StepPath s s.popTurn.assertReset
  /-- Reset is deasserted. -/
  | resetOff (h : nextTurn s = .resetOff) : StepPath s s.popTurn.deassertReset

/-- A step that answers a next state answers what one of its paths answers. -/
theorem step_path {s t : State} (h : step s = .next t) : StepPath s t := by
  have h : runTurn (nextTurn s) s.popTurn = .next t := h
  cases hn : nextTurn s with
  | host =>
    simp only [hn, runTurn, hostTurn, State.popTurn_host] at h
    cases hh : s.host with
    | nil =>
      simp only [hh, Host.Outcome.next.injEq] at h
      exact h ▸ .idle (Or.inl hn)
    | cons x rest =>
      simp only [hh] at h
      exact .hostAct hn x rest hh _ t (act_path h)
  | sequencer =>
    simp only [hn, runTurn, sequencerTurn] at h
    by_cases hb : s.popTurn.status.busy = true
    · rw [if_pos hb] at h
      cases hd : decode s.popTurn.cur.cmd with
      | ok i =>
        simp only [hd] at h
        exact .command hn hb i hd t h
      | error e =>
        simp only [hd, Host.Outcome.next.injEq] at h
        exact h ▸ .illegal hn hb e hd
    · rw [if_neg hb, Host.Outcome.next.injEq] at h
      exact h ▸ .idle (Or.inr ⟨hn, by simpa using hb⟩)
  | other x =>
    simp only [hn, runTurn] at h
    exact .otherAct x hn t (act_path h)
  | visible =>
    simp only [hn, runTurn, Host.Outcome.next.injEq] at h
    exact h ▸ .visible hn
  | resetOn =>
    simp only [hn, runTurn, Host.Outcome.next.injEq] at h
    exact h ▸ .resetOn hn
  | resetOff =>
    simp only [hn, runTurn, Host.Outcome.next.injEq] at h
    exact h ▸ .resetOff hn

end Sys2Proof.Machine
end

