-- ==== Sys2Proof/Laws/PerInstr.lean ====
section
/-! SUPPORT. Facts stated once per command, over its syntax and its encoding. -/

namespace Sys2Proof.Laws

/-- A command's fields pass the checks of 30_encoding R76, its CMD value has exactly those fields, and that value fits
the command word's low 10 bits (30_encoding R70, R75). -/
def EncodeLegal.Statement (i : Instr) : Prop :=
  i.wellFormed = true ∧ fieldsOf (encode i) = i.fields ∧ (encode i).toNat < 2 ^ 10

theorem EncodeLegal.swap32 : EncodeLegal.Statement .swap32 := by
  unfold EncodeLegal.Statement
  decide

theorem EncodeLegal.swap64 : EncodeLegal.Statement .swap64 := by
  unfold EncodeLegal.Statement
  decide

theorem EncodeLegal.frev32 : EncodeLegal.Statement .frev32 := by
  unfold EncodeLegal.Statement
  decide

theorem EncodeLegal.frev64 : EncodeLegal.Statement .frev64 := by
  unfold EncodeLegal.Statement
  decide

theorem EncodeLegal.revip (sp : Bool) : EncodeLegal.Statement (.revip sp) := by
  unfold EncodeLegal.Statement
  revert sp
  decide

theorem EncodeLegal.revcp (sp dp : Bool) : EncodeLegal.Statement (.revcp sp dp) := by
  unfold EncodeLegal.Statement
  revert sp dp
  decide

end Sys2Proof.Laws
end

