-- ==== Sys2Proof/Tests/Slice0.lean ====
section
/-! SUPPORT. Tests: well-formedness, decoding of words written out from the spec's tables, results of 95_test_vectors,
and for every statement with hypotheses a concrete case that meets them, one for each clause. -/

namespace Sys2Proof.Tests

open Sys2Proof Sys2Proof.Machine

/-! ### Well-formedness: one ill-formed term for each check (30_encoding R74, R76, R77) -/

theorem test_wellFormed_refuses_res0 : Fields.wellFormed ⟨1, 1, false, false, 0, 0⟩ = false := by decide
theorem test_wellFormed_refuses_res1 : Fields.wellFormed ⟨6, 0, true, true, 1, 0⟩ = false := by decide
theorem test_wellFormed_refuses_res2 : Fields.wellFormed ⟨6, 0, true, true, 0, 0x80000000⟩ = false := by decide
theorem test_wellFormed_refuses_op_zero : Fields.wellFormed ⟨0, 0, false, false, 0, 0⟩ = false := by decide
theorem test_wellFormed_refuses_op_seven : Fields.wellFormed ⟨7, 0, false, false, 0, 0⟩ = false := by decide
theorem test_wellFormed_refuses_op_fifteen : Fields.wellFormed ⟨15, 0, false, false, 0, 0⟩ = false := by decide
theorem test_wellFormed_refuses_sp_of_pn : Fields.wellFormed ⟨4, 0, true, false, 0, 0⟩ = false := by decide
theorem test_wellFormed_refuses_dp_of_pn : Fields.wellFormed ⟨1, 0, false, true, 0, 0⟩ = false := by decide
theorem test_wellFormed_refuses_dp_of_revip : Fields.wellFormed ⟨5, 0, true, true, 0, 0⟩ = false := by decide
theorem test_wellFormed_takes_both_refs_of_revcp : Fields.wellFormed ⟨6, 0, true, true, 0, 0⟩ = true := by decide

/-! ### Decoding: words written out field by field, RES2 RES1 DP SP RES0 OP (30_encoding R70, R71, R75) -/

/-- A CMD value from its fields, high to low. -/
def wordOf (res2 : BitVec 32) (res1 : BitVec 22) (dp sp : BitVec 1) (res0 op : BitVec 4) : Word :=
  res2 ++ (res1 ++ (dp ++ (sp ++ (res0 ++ op))))

theorem test_decode_swap32 : decodeTableWord 64 (wordOf 0 0 0#1 0#1 0#4 0b0001#4).toNat = some .swap32 := by decide
theorem test_decode_swap64 : decodeTableWord 64 (wordOf 0 0 0#1 0#1 0#4 0b0010#4).toNat = some .swap64 := by decide
theorem test_decode_frev32 : decodeTableWord 64 (wordOf 0 0 0#1 0#1 0#4 0b0011#4).toNat = some .frev32 := by decide
theorem test_decode_frev64 : decodeTableWord 64 (wordOf 0 0 0#1 0#1 0#4 0b0100#4).toNat = some .frev64 := by decide
theorem test_decode_revip : decodeTableWord 64 (wordOf 0 0 0#1 1#1 0#4 0b0101#4).toNat = some (.revip true) ∧
    decodeTableWord 64 (wordOf 0 0 0#1 0#1 0#4 0b0101#4).toNat = some (.revip false) := by decide
theorem test_decode_revcp : decodeTableWord 64 (wordOf 0 0 1#1 1#1 0#4 0b0110#4).toNat = some (.revcp true true) ∧
    decodeTableWord 64 (wordOf 0 0 0#1 1#1 0#4 0b0110#4).toNat = some (.revcp true false) ∧
    decodeTableWord 64 (wordOf 0 0 1#1 0#1 0#4 0b0110#4).toNat = some (.revcp false true) ∧
    decodeTableWord 64 (wordOf 0 0 0#1 0#1 0#4 0b0110#4).toNat = some (.revcp false false) := by decide
theorem test_decode_rejects_by_name : decode 0x000 = .error .opZero ∧ decode 0x007 = .error .opReserved ∧
    decode 0x316 = .error .reservedBit ∧ decode 0x305 = .error .refNotTaken ∧ decode 0x101 = .error .refNotTaken ∧
    decodeBytes [1, 0, 0, 0, 0, 0, 0] = .error .tooShort := by decide
theorem test_decode_rejects_a_high_bit : decode 0x8000000000000001 = .error .reservedBit := by decide

/-! ### Helpers -/

/-- The next state of an outcome. -/
def after (r : Result) : Option State :=
  match r with
  | .next t => some t
  | .fault _ => none
  | .refused _ => none

/-- The next state of an outcome, or the given state. -/
def next (r : Result) (d : State) : State := (after r).getD d

theorem eq_next {r : Result} (d : State) (h : (after r).isSome = true) : r = .next (next r d) := by
  cases r with
  | next t => rfl
  | fault e => simp [after] at h
  | refused e => simp [after] at h

theorem is_next {r : Result} (h : (after r).isSome = true) : ∃ t, r = .next t := ⟨_, eq_next State.reset h⟩

/-- Platform `p` with memory `m` and the operands given, right after the Accept of `w`. -/
def placed (p : Config.Platform) (m : Memory) (w din src dst len : Word) : State :=
  State.accept { State.resetOn p with mem := m, din := din, src := src, dst := dst, len := len } w

/-- The start memory of 95_test_vectors section 3. -/
def startMem : Memory := Memory.place [] 0x1000 [1, 2, 3, 4, 5, 6, 7, 8]

/-- The reference configuration with `ADDR_W = 16`. -/
def narrow : Config.Platform := { Config.Platform.reference with addrWPred := 15 }

/-- The reference configuration with one address that `Admit` refuses for the kinds given as false. -/
def guarded (a : Nat) (r w : Bool) : Config.Platform :=
  { Config.Platform.reference with admission := [⟨a, a, r, w⟩] }

/-- The reference configuration with one location that has side effects. -/
def deviceAt (a : Nat) : Config.Platform := { Config.Platform.reference with sideEffects := [(a, a)] }

/-- The `n` bytes from `a` upward after an outcome, with STATUS. -/
def bytesAfter (r : Result) (a n : Nat) : Option (Word × List Byte) :=
  (after r).map (fun t => (statusWord t.status, (List.range n).map (fun k => t.mem.read (a + k))))

/-- DOUT and STATUS after an outcome. -/
def doutAfter (r : Result) : Option (Word × Word) := (after r).map (fun t => (t.dout, statusWord t.status))

/-- A PN command in flight with `din` latched. -/
def pn (w din : Word) : State := placed Config.Platform.reference [] w din 0 0 0

/-- A GBRE command in flight over the start memory. -/
def gbre (w src dst len : Word) : State := placed Config.Platform.reference startMem w 0 src dst len

/-! ### Results (95_test_vectors sections 2 and 3) -/

theorem test_swap32_P32_1 : doutAfter (sequencerTurn (pn 0x001 0x1B5A6)) = some (0xA6B50100, 0x02) := by decide
theorem test_swap32_P32_12 : doutAfter (sequencerTurn (pn 0x001 0xFFFFFFFF00000001)) = some (0x01000000, 0x02) := by
  decide
theorem test_swap64_P64_1 :
    doutAfter (sequencerTurn (pn 0x002 0x0102030405060708)) = some (0x0807060504030201, 0x02) := by decide
theorem test_swap64_P64_6 :
    doutAfter (sequencerTurn (pn 0x002 0x00000000FFFFFFFF)) = some (0xFFFFFFFF00000000, 0x02) := by decide
theorem test_frev32_P32_9 : doutAfter (sequencerTurn (pn 0x003 0x7FC00001)) = some (0x0100C07F, 0x02) := by decide
theorem test_frev32_P32_13 : doutAfter (sequencerTurn (pn 0x003 0x123456789ABCDEF0)) = some (0xF0DEBC9A, 0x02) := by
  decide
theorem test_frev64_P64_11 :
    doutAfter (sequencerTurn (pn 0x004 0x400921FB54442D18)) = some (0x182D4454FB210940, 0x02) := by decide
theorem test_frev64_P64_9 :
    doutAfter (sequencerTurn (pn 0x004 0x7FF8000000000001)) = some (0x010000000000F87F, 0x02) := by decide
theorem test_revip_G8 : bytesAfter (sequencerTurn (gbre 0x105 0x1000 0 5)) 0x1000 8 =
    some (0x02, [5, 4, 3, 2, 1, 6, 7, 8]) := by decide
theorem test_revip_G11 : bytesAfter (sequencerTurn (placed (guarded 0x1003 true false) startMem 0x105 0 0x1000 0 4))
    0x1000 8 = some (0x52, [1, 2, 3, 4, 5, 6, 7, 8]) := by decide
theorem test_revcp_H12 : bytesAfter (sequencerTurn (gbre 0x306 0x1000 0x1004 4)) 0x1000 8 =
    some (0x02, [1, 2, 3, 4, 4, 3, 2, 1]) := by decide
theorem test_revcp_H11 : bytesAfter (sequencerTurn (gbre 0x306 0x1000 0x0FF9 8)) 0x0FF9 8 =
    some (0x42, [0, 0, 0, 0, 0, 0, 0, 1]) := by decide
theorem test_illegal_G15 : bytesAfter (sequencerTurn (gbre 0x205 0x1000 0 8)) 0x1000 1 = some (0x12, [1]) := by decide

/-! ### Witnesses: the window -/

theorem wit_IdReadsItsConstantAlways : addrW State.reset.platform = 64 := by decide

theorem wit_StatusReadsItsFieldsInPlace : ∀ e : ErrCode, ∃ s : State, s.status.err = e :=
  fun e => ⟨{ State.reset with status := ⟨false, true, false, e⟩ }, rfl⟩

/-- The first and the last reserved offset. -/
theorem wit_ReservedOffsetsReadZeroIgnoreWrites :
    (0x40 ≤ 0x40 ∧ 0x40 ≤ 0xF8 ∧ 0x40 % 8 = 0) ∧ 0x40 ≤ 0xF8 ∧ 0xF8 ≤ 0xF8 ∧ 0xF8 % 8 = 0 := by decide

theorem wit_ReadOnlyRegisterWritesIgnored :
    ∀ off ∈ [0x00, 0x08, 0x20], off = 0x00 ∨ off = 0x08 ∨ off = 0x20 := by decide

/-- Aligned at the last offset; misaligned; too narrow at the last byte; beginning one byte below the window. -/
theorem wit_OnlyAlignedFullAccessesAreTaken :
    let p : Config.Platform := { Config.Platform.reference with basePage := 1 }
    ((0 < 8 ∧ brxBase p ≤ 0x1F8 + 0 ∧ 0x1F8 + 0 < brxBase p + 0x100) ∧
      8 = 8 ∧ brxBase p ≤ 0x1F8 ∧ (0x1F8 - brxBase p) % 8 = 0) ∧
    ((0 < 8 ∧ brxBase p ≤ 0x104 + 0 ∧ 0x104 + 0 < brxBase p + 0x100) ∧
      ¬(8 = 8 ∧ brxBase p ≤ 0x104 ∧ (0x104 - brxBase p) % 8 = 0)) ∧
    ((0 < 1 ∧ brxBase p ≤ 0x1FF + 0 ∧ 0x1FF + 0 < brxBase p + 0x100) ∧
      ¬(1 = 8 ∧ brxBase p ≤ 0x1FF ∧ (0x1FF - brxBase p) % 8 = 0)) ∧
    ((1 < 8 ∧ brxBase p ≤ 0xFF + 1 ∧ 0xFF + 1 < brxBase p + 0x100) ∧
      ¬(8 = 8 ∧ brxBase p ≤ 0xFF ∧ (0xFF - brxBase p) % 8 = 0)) := by decide

theorem wit_OperandWritesChangeOnlyTheirRegister :
    (pn 0x001 5).resetAsserted = false ∧ (pn 0x001 5).status.busy = true ∧ State.reset.resetAsserted = false := by decide

/-! ### Witnesses: Accept -/

/-- A host with one store to 0x1000 not yet visible. -/
def pending : State := { State.reset with mem := startMem, src := 0x1000, len := 8, unseen := [(0x1000, 0xAA)] }

/-- `pending` after a CMD write. -/
def pendingAccepted (w : Word) : State := busWrite pending (brxBase pending.platform + 0x10) (bytesOfWord w)

/-- A PN command owns nothing; the pending store is to the region of REVIP, and to the input of REVCP alone. -/
theorem wit_AcceptLatchesTheOperands : pending.status.busy = false ∧ pending.resetAsserted = false ∧
    ∀ c ∈ pending.unseen, owns (pendingAccepted 0x001) c.1 = false := by decide

theorem wit_StoresUnseenAtAcceptRace : pending.status.busy = false ∧ pending.resetAsserted = false ∧
    (∃ c ∈ pending.unseen, owns (pendingAccepted 0x105) c.1 = true) ∧ pending.mem.wf = true ∧
    pending.unseen.filter (fun d => owns (pendingAccepted 0x105) d.1) = [(0x1000, 0xAA)] ∧
    ownsWritten (pendingAccepted 0x105) 0x1000 = true ∧ ownsWritten (pendingAccepted 0x005) 0x1007 = true ∧
    owns (pendingAccepted 0x306) 0x1000 = true ∧ ownsWritten (pendingAccepted 0x306) 0x1000 = false ∧
    ∀ c ∈ pending.unseen, owns (pendingAccepted 0x105) c.1 = true → c.1 ≠ 0x1008 := by decide

theorem wit_CommandWriteWhileBusyOnlySetsOvr :
    (pn 0x001 5).status.busy = true ∧ (pn 0x001 5).resetAsserted = false := by decide

theorem wit_RejectedWriteAndCompleteInEitherOrder :
    (pn 0x001 5).status.busy = true ∧ (pn 0x001 5).resetAsserted = false ∧
    (∃ t, sequencerTurn (busWrite (pn 0x001 5) (brxBase (pn 0x001 5).platform + 0x10) (bytesOfWord 2)) = .next t) ∧
    ∃ t, sequencerTurn (pn 0x001 5) = .next t :=
  ⟨by decide, by decide, is_next (by decide), is_next (by decide)⟩

/-! ### Witnesses: encoding and the permutation network -/

theorem wit_OnlyLegalWordsRunOthersCompleteIllegal :
    (pn 0x305 5).status.busy = true ∧ ¬LegalWord (pn 0x305 5).cur.cmd := by
  unfold LegalWord
  decide

theorem wit_FloatReverseMovesBytesByIndex : (0 < 4 ∧ 3 < 4) ∧ 0 < 8 ∧ 7 < 8 := by decide

theorem wit_SwapThirtyTwoWritesTheTwoStageResult : ∃ v s1 s2 : BitVec 32,
    v = (pn 0x001 0x1B5A6).cur.din.extractLsb' 0 32 ∧
    s1 = ((v <<< 8) &&& 0xFF00FF00#32) ||| ((v >>> 8) &&& 0x00FF00FF#32) ∧
    s2 = (s1 <<< 16) ||| ((s1 >>> 16) &&& 0x0000FFFF#32) ∧ s2 = 0xA6B50100#32 := by
  refine ⟨0x0001B5A6, 0x0100A6B5, 0xA6B50100, ?_⟩
  decide

theorem wit_SwapSixtyFourWritesTheThreeStageResult : ∃ v s1 s2 s3 : Word, v = (pn 0x002 0x0102030405060708).cur.din ∧
    s1 = ((v <<< 8) &&& 0xFF00FF00FF00FF00#64) ||| ((v >>> 8) &&& 0x00FF00FF00FF00FF#64) ∧
    s2 = ((s1 <<< 16) &&& 0xFFFF0000FFFF0000#64) ||| ((s1 >>> 16) &&& 0x0000FFFF0000FFFF#64) ∧
    s3 = (s2 <<< 32) ||| (s2 >>> 32) ∧ s3 = 0x0807060504030201#64 := by
  refine ⟨0x0102030405060708, 0x0201040306050807, 0x0403020108070605, 0x0807060504030201, ?_⟩
  decide

/-- A mnemonic in mixed case. -/
theorem wit_CommandTextAssemblesToItsWord :
    "sWaP64".toList.map Char.toLower = (commandText .swap64).1.toList.map Char.toLower := by decide

theorem wit_PermutationCommandTwice : ∀ i ∈ ([.swap32, .swap64, .frev32, .frev64] : List Instr),
    i ∈ ([.swap32, .swap64, .frev32, .frev64] : List Instr) := fun _ h => h

/-! ### Witnesses: REVIP -/

/-- The bytes REVIP would access are ordinary memory. -/
def RevipOrdinary (s : State) (sp : Bool) : Prop :=
  (sp = true → 2 ≤ s.cur.len.toNat → s.cur.src.toNat + s.cur.len.toNat ≤ 2 ^ addrW s.platform →
      (∀ a, InPairSet s.cur.src.toNat s.cur.len.toNat a →
        admits s.platform .read a = true ∧ admits s.platform .write a = true) →
      ∀ a, InPairSet s.cur.src.toNat s.cur.len.toNat a → hasSideEffects s.platform a = false)

/-- The premises of `RevipCompletesByItsRule` on the state. -/
def RevipPremises (s : State) (sp : Bool) : Prop := s.mem.wf = true ∧ s.raced = false ∧ RevipOrdinary s sp

/-- An absent buffer whose SRC and LEN fit nowhere. -/
theorem wit_RevipCompletes_absent : RevipPremises (gbre 0x005 0xFFFFFFFFFFFFFFFF 0 0xFFFFFFFFFFFFFFFF) false :=
  ⟨by decide, by decide, fun _ _ _ _ _ _ => rfl⟩

/-- The longest length that is a no-op. -/
theorem wit_RevipCompletes_short : RevipPremises (gbre 0x105 0x1000 0 1) true ∧
    (gbre 0x105 0x1000 0 1).cur.len.toNat < 2 := ⟨⟨by decide, by decide, fun _ _ _ _ _ _ => rfl⟩, by decide⟩

/-- One byte past the top. -/
theorem wit_RevipCompletes_range : let s := placed narrow startMem 0x105 0 0xFFFF 0 2
    RevipPremises s true ∧ 2 ≤ s.cur.len.toNat ∧ 2 ^ addrW s.platform < s.cur.src.toNat + s.cur.len.toNat :=
  ⟨⟨by decide, by decide, fun _ _ _ _ _ _ => rfl⟩, by decide, by decide⟩

/-- The last byte of the region is not writable. -/
theorem wit_RevipCompletes_memFault : let s := placed (guarded 0x1003 true false) startMem 0x105 0 0x1000 0 4
    RevipPremises s true ∧ 2 ≤ s.cur.len.toNat ∧ s.cur.src.toNat + s.cur.len.toNat ≤ 2 ^ addrW s.platform ∧
    ∃ a, InPairSet s.cur.src.toNat s.cur.len.toNat a ∧
      (admits s.platform .read a = false ∨ admits s.platform .write a = false) :=
  ⟨⟨by decide, by decide, fun _ _ _ _ _ _ => rfl⟩, by decide, by decide,
    0x1003, ⟨0, by decide, Or.inr (by decide)⟩, Or.inr (by decide)⟩

/-- The last two bytes of the space. -/
theorem wit_RevipCompletes_reverse : let s := placed narrow startMem 0x105 0 0xFFFE 0 2
    RevipPremises s true ∧ 2 ≤ s.cur.len.toNat ∧ s.cur.src.toNat + s.cur.len.toNat ≤ 2 ^ addrW s.platform ∧
    ∀ a, InPairSet s.cur.src.toNat s.cur.len.toNat a →
      admits s.platform .read a = true ∧ admits s.platform .write a = true :=
  ⟨⟨by decide, by decide, fun _ _ _ _ _ _ => rfl⟩, by decide, by decide, fun _ _ => ⟨rfl, rfl⟩⟩

theorem wit_RevipRefusesSideEffectLocations : let s := placed (deviceAt 0x1001) startMem 0x105 0 0x1000 0 2
    2 ≤ s.cur.len.toNat ∧ s.cur.src.toNat + s.cur.len.toNat ≤ 2 ^ addrW s.platform ∧
    (∀ a, InPairSet s.cur.src.toNat s.cur.len.toNat a →
      admits s.platform .read a = true ∧ admits s.platform .write a = true) ∧
    ∃ a, InPairSet s.cur.src.toNat s.cur.len.toNat a ∧ hasSideEffects s.platform a = true :=
  ⟨by decide, by decide, fun _ _ => ⟨rfl, rfl⟩, 0x1001, ⟨0, by decide, Or.inr (by decide)⟩, by decide⟩

/-- The state after the first REVIP, with the same command accepted again. -/
def again (s : State) (w : Word) : State := (next (exec (.revip true) s) s).accept w

theorem wit_RevipTwiceRestoresMemory : let s := gbre 0x105 0x1000 0 8
    ∃ t u w : State, s.mem.wf = true ∧ u.mem.wf = true ∧ s.raced = false ∧ u.raced = false ∧
      exec (.revip true) s = .next t ∧ t.status.err = .ok ∧ u.mem = t.mem ∧
      (∀ a, InRegion s.cur.src.toNat s.cur.len.toNat a → u.mem.read a = t.mem.read a) ∧
      u.cur.src = s.cur.src ∧ u.cur.len = s.cur.len ∧ exec (.revip true) u = .next w ∧ w.status.err = .ok :=
  ⟨next (exec (.revip true) (gbre 0x105 0x1000 0 8)) State.reset, again (gbre 0x105 0x1000 0 8) 0x105, _, by decide,
    by decide, by decide, by decide, eq_next State.reset (by decide), by decide, by decide,
    fun _ _ => congrArg (fun m => Memory.read m _) (by decide), by decide, by decide, eq_next State.reset (by decide),
    by decide⟩

/-! ### Witnesses: REVCP -/

/-- The bytes REVCP would access are ordinary memory. -/
def RevcpOrdinary (s : State) (sp dp : Bool) : Prop :=
  (sp = true → dp = true → 1 ≤ s.cur.len.toNat → s.cur.src.toNat + s.cur.len.toNat ≤ 2 ^ addrW s.platform →
      s.cur.dst.toNat + s.cur.len.toNat ≤ 2 ^ addrW s.platform →
      ¬(s.cur.src.toNat < s.cur.dst.toNat + s.cur.len.toNat ∧
        s.cur.dst.toNat < s.cur.src.toNat + s.cur.len.toNat) →
      (∀ a, InRegion s.cur.src.toNat s.cur.len.toNat a → admits s.platform .read a = true) →
      (∀ a, InRegion s.cur.dst.toNat s.cur.len.toNat a → admits s.platform .write a = true) →
      ∀ a, InRegion s.cur.src.toNat s.cur.len.toNat a ∨ InRegion s.cur.dst.toNat s.cur.len.toNat a →
        hasSideEffects s.platform a = false)

/-- The premises of `RevcpCompletesByItsRule` on the state. -/
def RevcpPremises (s : State) (sp dp : Bool) : Prop := s.mem.wf = true ∧ s.raced = false ∧ RevcpOrdinary s sp dp

/-- An absent input, and a present one of length 0 with no output. -/
theorem wit_RevcpCompletes_noop : RevcpPremises (gbre 0x206 0x1000 0xFFFFFFFFFFFFFFFF 2) false true ∧
    RevcpPremises (gbre 0x106 0x1000 0x2000 0) true false ∧ (gbre 0x106 0x1000 0x2000 0).cur.len.toNat = 0 :=
  ⟨⟨by decide, by decide, fun _ _ _ _ _ _ _ _ _ _ => rfl⟩, ⟨by decide, by decide, fun _ _ _ _ _ _ _ _ _ _ => rfl⟩,
    by decide⟩

/-- The shortest length with no output, with equal bases. -/
theorem wit_RevcpCompletes_outAbsent : RevcpPremises (gbre 0x106 0x1000 0x1000 1) true false ∧
    1 ≤ (gbre 0x106 0x1000 0x1000 1).cur.len.toNat :=
  ⟨⟨by decide, by decide, fun _ _ _ _ _ _ _ _ _ _ => rfl⟩, by decide⟩

/-- One byte past the top: the input, then the output. -/
theorem wit_RevcpCompletes_range : let s := placed narrow startMem 0x306 0 0xFFF8 0x2000 9
    let t := placed narrow startMem 0x306 0 0x1000 0xFFFF 2
    (RevcpPremises s true true ∧ 1 ≤ s.cur.len.toNat ∧ 2 ^ addrW s.platform < s.cur.src.toNat + s.cur.len.toNat) ∧
    RevcpPremises t true true ∧ 1 ≤ t.cur.len.toNat ∧ 2 ^ addrW t.platform < t.cur.dst.toNat + t.cur.len.toNat :=
  ⟨⟨⟨by decide, by decide, fun _ _ _ _ _ _ _ _ _ _ => rfl⟩, by decide, by decide⟩,
    ⟨by decide, by decide, fun _ _ _ _ _ _ _ _ _ _ => rfl⟩, by decide, by decide⟩

/-- One shared byte. -/
theorem wit_RevcpCompletes_aliased : let s := gbre 0x306 0x1000 0x0FF9 8
    RevcpPremises s true true ∧ 1 ≤ s.cur.len.toNat ∧
    s.cur.src.toNat + s.cur.len.toNat ≤ 2 ^ addrW s.platform ∧
    s.cur.dst.toNat + s.cur.len.toNat ≤ 2 ^ addrW s.platform ∧
    s.cur.src.toNat < s.cur.dst.toNat + s.cur.len.toNat ∧ s.cur.dst.toNat < s.cur.src.toNat + s.cur.len.toNat :=
  ⟨⟨by decide, by decide, fun _ _ _ _ _ _ _ _ _ _ => rfl⟩, by decide, by decide, by decide, by decide, by decide⟩

/-- The last output byte is not writable; the first input byte is not readable. -/
theorem wit_RevcpCompletes_memFault : let s := placed (guarded 0x2007 true false) startMem 0x306 0 0x1000 0x2000 8
    let t := placed (guarded 0x1000 false true) startMem 0x306 0 0x1000 0x2000 8
    (RevcpPremises s true true ∧ 1 ≤ s.cur.len.toNat ∧ s.cur.src.toNat + s.cur.len.toNat ≤ 2 ^ addrW s.platform ∧
      s.cur.dst.toNat + s.cur.len.toNat ≤ 2 ^ addrW s.platform ∧
      ¬(s.cur.src.toNat < s.cur.dst.toNat + s.cur.len.toNat ∧
        s.cur.dst.toNat < s.cur.src.toNat + s.cur.len.toNat) ∧
      ∃ a, InRegion s.cur.dst.toNat s.cur.len.toNat a ∧ admits s.platform .write a = false) ∧
    RevcpPremises t true true ∧
      ∃ a, InRegion t.cur.src.toNat t.cur.len.toNat a ∧ admits t.platform .read a = false :=
  ⟨⟨⟨by decide, by decide, fun _ _ _ _ _ _ _ _ _ _ => rfl⟩, by decide, by decide, by decide, by decide,
      0x2007, by decide, by decide⟩,
    ⟨by decide, by decide, fun _ _ _ _ _ _ _ _ _ _ => rfl⟩, 0x1000, by decide, by decide⟩

/-- One byte; adjacent regions at the top of the space. -/
theorem wit_RevcpCompletes_copy : let s := gbre 0x306 0x1000 0x2000 1
    let t := placed narrow startMem 0x306 0 0xFFF8 0xFFFC 4
    (RevcpPremises s true true ∧ 1 ≤ s.cur.len.toNat ∧ s.cur.src.toNat + s.cur.len.toNat ≤ 2 ^ addrW s.platform ∧
      s.cur.dst.toNat + s.cur.len.toNat ≤ 2 ^ addrW s.platform ∧
      ¬(s.cur.src.toNat < s.cur.dst.toNat + s.cur.len.toNat ∧
        s.cur.dst.toNat < s.cur.src.toNat + s.cur.len.toNat) ∧
      (∀ a, InRegion s.cur.src.toNat s.cur.len.toNat a → admits s.platform .read a = true) ∧
      ∀ a, InRegion s.cur.dst.toNat s.cur.len.toNat a → admits s.platform .write a = true) ∧
    RevcpPremises t true true ∧ t.cur.dst.toNat + t.cur.len.toNat ≤ 2 ^ addrW t.platform ∧
      ¬(t.cur.src.toNat < t.cur.dst.toNat + t.cur.len.toNat ∧
        t.cur.dst.toNat < t.cur.src.toNat + t.cur.len.toNat) ∧
      (∀ a, InRegion t.cur.src.toNat t.cur.len.toNat a → admits t.platform .read a = true) ∧
      ∀ a, InRegion t.cur.dst.toNat t.cur.len.toNat a → admits t.platform .write a = true :=
  ⟨⟨⟨by decide, by decide, fun _ _ _ _ _ _ _ _ _ _ => rfl⟩, by decide, by decide, by decide, by decide,
      fun _ _ => rfl, fun _ _ => rfl⟩,
    ⟨by decide, by decide, fun _ _ _ _ _ _ _ _ _ _ => rfl⟩, by decide, by decide, fun _ _ => rfl, fun _ _ => rfl⟩

theorem wit_RevcpRefusesSideEffectLocations : let s := placed (deviceAt 0x2000) startMem 0x306 0 0x1000 0x2000 1
    1 ≤ s.cur.len.toNat ∧ s.cur.src.toNat + s.cur.len.toNat ≤ 2 ^ addrW s.platform ∧
    s.cur.dst.toNat + s.cur.len.toNat ≤ 2 ^ addrW s.platform ∧
    ¬(s.cur.src.toNat < s.cur.dst.toNat + s.cur.len.toNat ∧
      s.cur.dst.toNat < s.cur.src.toNat + s.cur.len.toNat) ∧
    (∀ a, InRegion s.cur.src.toNat s.cur.len.toNat a → admits s.platform .read a = true) ∧
    (∀ a, InRegion s.cur.dst.toNat s.cur.len.toNat a → admits s.platform .write a = true) ∧
    ∃ a, (InRegion s.cur.src.toNat s.cur.len.toNat a ∨ InRegion s.cur.dst.toNat s.cur.len.toNat a) ∧
      hasSideEffects s.platform a = true :=
  ⟨by decide, by decide, by decide, by decide, fun _ _ => rfl, fun _ _ => rfl, 0x2000, Or.inr (by decide), by decide⟩

theorem wit_RevcpNeverWritesItsInput : let s := gbre 0x306 0x1000 0x2000 8
    s.mem.wf = true ∧ s.raced = false ∧ (∃ t, exec (.revcp true true) s = .next t) ∧
    InRegion s.cur.src.toNat s.cur.len.toNat 0x1000 ∧ InRegion s.cur.src.toNat s.cur.len.toNat 0x1007 :=
  ⟨by decide, by decide, is_next (by decide), by decide, by decide⟩

/-- Both commands on one raced state: the byte just past each written region. -/
theorem wit_BufferCommandsWriteOnlyTheirRegion : let s := { gbre 0x306 0x1000 0x2000 2 with raced := true }
    s.mem.wf = true ∧ (∃ t, exec (.revip true) s = .next t) ∧ (∃ t, exec (.revcp true true) s = .next t) ∧
    ¬InRegion s.cur.src.toNat s.cur.len.toNat 0x1002 ∧ ¬InRegion s.cur.dst.toNat s.cur.len.toNat 0x2002 :=
  ⟨by decide, is_next rfl, is_next rfl, by decide, by decide⟩

theorem wit_BufferCommandsIgnoreTheDataRegisters :
    (∃ t, exec (.revip true) (gbre 0x105 0x1000 0 2) = .next t) ∧
    ∃ t, exec (.revcp true true) (gbre 0x306 0x1000 0x2000 2) = .next t :=
  ⟨is_next (by decide), is_next (by decide)⟩

theorem wit_OverlapIsSharingAByte : 1 ≤ 1 := by decide

/-- A reference-configuration machine with the given bytes at 0x3000 and a REVCP of them to 0x4000. -/
def stored (bytes : List Byte) (len : Word) : State :=
  placed Config.Platform.reference (Memory.place [] 0x3000 bytes) 0x306 0 0x3000 0x4000 len

/-- What `BufferReversalAgreesWithTheNetwork` asks of the GBRE command in flight, for both commands. -/
def ReversesInMemory (s : State) (N : Nat) : Prop :=
  s.mem.wf = true ∧ s.raced = false ∧ s.cur.len.toNat = N ∧
    (∃ t, exec (.revcp true true) s = .next t ∧ t.status.err = .ok) ∧
    ∃ t, exec (.revip true) s = .next t ∧ t.status.err = .ok

/-- Program P5's bytes against SWAP32 of its pattern, least significant byte first. -/
theorem wit_BufferReversalAgrees_four_lsbFirst : let s := stored [0xA6, 0xB5, 1, 0] 4
    (4, Instr.swap32) ∈ ([(4, .swap32), (4, .frev32), (8, .swap64), (8, .frev64)] : List (Nat × Instr)) ∧
    ReversesInMemory s 4 ∧ (∃ r, exec .swap32 (pn 0x001 0x1B5A6) = .next r) ∧
    StoresBytes s.mem s.cur.src.toNat 4 (pn 0x001 0x1B5A6).cur.din true := by
  refine ⟨by decide, ⟨by decide, by decide, by decide, ⟨_, eq_next State.reset (by decide), by decide⟩,
    _, eq_next State.reset (by decide), by decide⟩, is_next (by decide), ?_⟩
  unfold StoresBytes
  decide

/-- Vector P64-1's pattern against FREV64, most significant byte first. -/
theorem wit_BufferReversalAgrees_eight_msbFirst : let s := stored [1, 2, 3, 4, 5, 6, 7, 8] 8
    (8, Instr.frev64) ∈ ([(4, .swap32), (4, .frev32), (8, .swap64), (8, .frev64)] : List (Nat × Instr)) ∧
    ReversesInMemory s 8 ∧ (∃ r, exec .frev64 (pn 0x004 0x0102030405060708) = .next r) ∧
    StoresBytes s.mem s.cur.src.toNat 8 (pn 0x004 0x0102030405060708).cur.din false := by
  refine ⟨by decide, ⟨by decide, by decide, by decide, ⟨_, eq_next State.reset (by decide), by decide⟩,
    _, eq_next State.reset (by decide), by decide⟩, is_next (by decide), ?_⟩
  unfold StoresBytes
  decide

/-! ### Witnesses: completion -/

/-- A legal word of REVIP and of REVCP, each outcome at a boundary of its condition. -/
theorem wit_FirstApplicable_revip : (LegalWord 0x105 ∧ LegalWord 0x005) ∧
    ((gbre 0x105 0x1000 0 2).status.busy = true ∧ (0x105 : Word).extractLsb' 0 4 = 5 ∧
      (0x105 : Word).getLsbD 8 = true ∧ (0x005 : Word).getLsbD 8 = false) ∧
    (gbre 0x105 0x1000 0 1).cur.len.toNat < 2 ∧
    2 ^ addrW narrow < (placed narrow [] 0x105 0 0xFFFF 0 2).cur.src.toNat + 2 ∧
    InPairSet 0x1000 2 0x1001 ∧ admits (guarded 0x1001 false true) .read 0x1001 = false := by
  refine ⟨?_, ?_, ?_, ?_, ⟨0, by decide, Or.inr (by decide)⟩, by decide⟩
  · unfold LegalWord
    decide
  · decide
  · decide
  · decide

theorem wit_FirstApplicable_illegal : (gbre 0x305 0x1000 0 8).status.busy = true ∧ ¬LegalWord 0x305 := by
  unfold LegalWord
  decide

theorem wit_FirstApplicable_revcp : (LegalWord 0x306 ∧ LegalWord 0x106 ∧ LegalWord 0x006) ∧
    (gbre 0x306 0x1000 0x1001 2).status.busy = true ∧ (0x306 : Word).extractLsb' 0 4 = 6 ∧
    (0x106 : Word).getLsbD 8 = true ∧ (0x106 : Word).getLsbD 9 = false ∧ (0x306 : Word).getLsbD 9 = true ∧
    (0x1000 < 0x1001 + 2 ∧ 0x1001 < 0x1000 + 2) ∧ ¬(0x1000 < 0x1002 + 2 ∧ 0x1002 < 0x1000 + 2) ∧
    InRegion 0x1002 2 0x1003 ∧ admits (guarded 0x1003 true false) .write 0x1003 = false := by
  unfold LegalWord
  decide

theorem wit_CompleteEndsTheCommandInFlight :
    (gbre 0x306 0x1000 0x2000 8).status.busy = true ∧ ∃ t, sequencerTurn (gbre 0x306 0x1000 0x2000 8) = .next t :=
  ⟨by decide, is_next (by decide)⟩

theorem wit_ErrorCompletionsChangeOnlyStatus : let s := gbre 0x306 0x1000 0x1000 1
    s.status.busy = true ∧ s.raced = false ∧ ∃ t, sequencerTurn s = .next t ∧ t.status.err ≠ .ok :=
  ⟨by decide, by decide, _, eq_next State.reset (by decide), by decide⟩

/-! ### Witnesses: races, visibility, reset -/

/-- The first and the last byte of the output of a REVCP in flight, and the last of its input. -/
theorem wit_AccessesToOwnedBytesRace : let s := gbre 0x306 0x1000 0x2000 8
    0x2007 < 2 ^ addrW s.platform ∧ hasSideEffects s.platform 0x2007 = false ∧ owns s 0x2007 = true ∧
    ownsWritten s 0x2007 = true ∧ owns s 0x2000 = true ∧ owns s 0x1007 = true ∧ ownsWritten s 0x1007 = false := by
  decide

/-- The state with its command raced. -/
def raced (s : State) : State := { s with raced := true }

/-- The premises of the REVIP half of `RacedCommandLeavesFreeBytes`. -/
def RacedRevipPremises (s : State) (sp : Bool) : Prop := s.mem.wf = true ∧ s.raced = true ∧ RevipOrdinary s sp

/-- The premises of the REVCP half of `RacedCommandLeavesFreeBytes`. -/
def RacedRevcpPremises (s : State) (sp dp : Bool) : Prop :=
  s.mem.wf = true ∧ s.raced = true ∧ RevcpOrdinary s sp dp

/-- The conditions of REVIP's outcomes do not read the race mark, so each witness of `RevipCompletesByItsRule` is one
here; a state, and the last byte of its region as a byte that becomes free. -/
theorem wit_RacedCommandLeavesFreeBytes_revip :
    (∀ s sp, RevipPremises s sp → RacedRevipPremises (raced s) sp) ∧
    RacedRevipPremises (raced (gbre 0x005 0x1000 0 8)) false ∧ 0x1007 < 2 ^ addrW (gbre 0x005 0x1000 0 8).platform ∧
    InRegion (gbre 0x005 0x1000 0 8).cur.src.toNat 8 0x1007 :=
  ⟨fun _ _ h => ⟨h.1, rfl, h.2.2⟩, ⟨by decide, by decide, fun _ _ _ _ _ _ => rfl⟩, by decide, by decide⟩

/-- A platform with a device past the bytes accessed shuts nothing out. -/
theorem wit_RacedCommandLeavesFreeBytes_device :
    RacedRevipPremises (raced (placed (deviceAt 0x1002) startMem 0x105 0 0x1000 0 2)) true := by
  refine ⟨by decide, by decide, ?_⟩
  rintro _ _ _ _ a ⟨i, hi, ha⟩
  have hi : i < 1 := hi
  obtain rfl : i = 0 := by omega
  rcases ha with rfl | rfl <;> decide

/-- The same for REVCP. -/
theorem wit_RacedCommandLeavesFreeBytes_revcp :
    (∀ s sp dp, RevcpPremises s sp dp → RacedRevcpPremises (raced s) sp dp) ∧
    RacedRevcpPremises (raced (gbre 0x106 0x1000 0x2000 1)) true false ∧
    0x2000 < 2 ^ addrW (gbre 0x106 0x1000 0x2000 1).platform ∧
    InRegion (gbre 0x106 0x1000 0x2000 1).cur.dst.toNat 1 0x2000 :=
  ⟨fun _ _ _ h => ⟨h.1, rfl, h.2.2⟩, ⟨by decide, by decide, fun _ _ _ _ _ _ _ _ _ _ => rfl⟩, by decide, by decide⟩

/-- A store to the byte just past the output region, with another store still pending. -/
theorem wit_HostStoresBecomeVisibleLater : let s := { gbre 0x306 0x1000 0x2000 8 with unseen := [(0x2008, 1)] }
    s.mem.wf = true ∧ 0x2008 < 2 ^ addrW s.platform ∧ hasSideEffects s.platform 0x2008 = false ∧
    owns s 0x2008 = false ∧ ∀ c ∈ s.unseen, owns s c.1 = false := by decide

/-- The last byte of the space, the other bytes just below and above the input of a command in flight. -/
theorem wit_UnownedLoadsAndStoresComplete : let s := placed narrow startMem 0x306 0 0x1000 0x2000 8
    s.mem.wf = true ∧ ∀ a ∈ [0xFFFF, 0x0FFF, 0x1008],
      a < 2 ^ addrW s.platform ∧ hasSideEffects s.platform a = false ∧ owns s a = false := by decide

/-- With a store pending and with none. -/
theorem wit_VisibleTurnLandsTheOldestStore : let s := { pending with turns := [.visible] }
    (nextTurn s = .visible ∧ s.unseen = (0x1000, 0xAA) :: [] ∧ owns s 0x1000 = false ∧ s.mem.wf = true) ∧
    nextTurn { State.reset with turns := [.visible] } = .visible := by decide

/-- The first address that does not exist. -/
theorem wit_AddressesOutsideTheSpaceFault : 2 ^ addrW narrow ≤ 0x10000 := by decide

/-- Reset asserted with a command and without one; deasserted; a write while it is asserted. -/
theorem wit_ResetInputClearsBrx :
    nextTurn { State.reset with turns := [.resetOn] } = .resetOn ∧ State.reset.status.busy = false ∧
    nextTurn { gbre 0x105 0x1000 0 8 with turns := [.resetOn] } = .resetOn ∧
    nextTurn (gbre 0x105 0x1000 0 8).assertReset = .resetOff ∧
    (gbre 0x105 0x1000 0 8).assertReset.resetAsserted = true := ⟨rfl, rfl, rfl, rfl, rfl⟩

/-- The state whose next turn asserts reset. -/
def cut (s : State) : State := { s with turns := [.resetOn] }

/-- Each kind of command in flight: present and absent references, overlapping regions, an illegal word. -/
theorem wit_ResetDuringACommandFreesItsRegion :
    (∀ s ∈ [gbre 0x105 0x1000 0 8, gbre 0x005 0x1000 0 8, gbre 0x306 0x1000 0x2000 8, gbre 0x006 0x1000 0x2000 8,
        gbre 0x306 0x1000 0x1004 8, gbre 0x305 0x1000 0 8, pn 0x004 1],
      (cut s).mem.wf = true ∧ (cut s).status.busy = true ∧ nextTurn (cut s) = .resetOn) ∧
    decode (cut (gbre 0x105 0x1000 0 8)).cur.cmd = .ok (.revip true) ∧
    decode (cut (gbre 0x005 0x1000 0 8)).cur.cmd = .ok (.revip false) ∧
    decode (cut (gbre 0x306 0x1000 0x1004 8)).cur.cmd = .ok (.revcp true true) ∧
    decode (cut (gbre 0x006 0x1000 0x2000 8)).cur.cmd = .ok (.revcp false false) ∧
    decode (cut (pn 0x004 1)).cur.cmd = .ok .frev64 ∧ ¬LegalWord (cut (gbre 0x305 0x1000 0 8)).cur.cmd ∧
    0x1007 < 2 ^ addrW (cut (gbre 0x105 0x1000 0 8)).platform ∧ InRegion 0x1000 8 0x1007 ∧ ¬InRegion 0x1000 8 0x1008 ∧
    InRegion 0x2000 8 0x2000 ∧ ¬InRegion 0x2000 8 0x1FFF := by
  unfold LegalWord
  decide

/-! ### Witnesses: steps -/

theorem wit_StepRunsTheDecodedCommand :
    nextTurn (gbre 0x306 0x1000 0x2000 8) = .sequencer ∧ (gbre 0x306 0x1000 0x2000 8).status.busy = true ∧
    decode (gbre 0x306 0x1000 0x2000 8).cur.cmd = .ok (.revcp true true) := by decide

/-- A host that polls. -/
def polling (s : State) : State := { s with host := [.poll], turns := [.host] }

theorem wit_PollRepeatsWhileBusy : (polling (pn 0x001 1)).host = .poll :: [] ∧ (polling (pn 0x001 1)).status.busy = true ∧
    (polling State.reset).status.busy = false := by decide

/-- A REVIP in flight, with another host store on its way: the invariant holds and a step goes on. -/
theorem wit_EveryStepKeepsTheInvariant : let s := { gbre 0x105 0x1000 0 2 with unseen := [(0x1002, 9)] }
    Inv s ∧ ∃ t, step s = .next t :=
  ⟨{ memCanonical := by decide
     memInside := fun a ha => Memory.read_above _ 0x1008 (by decide) a (le_trans (by decide) ha)
     unseenInside := by decide
     addrRegsFit := by decide
     latchedFit := by decide
     notBusyAndDone := by decide
     errOkWhileBusy := by decide
     idleSinceReset := by decide
     cmdInFlight := by decide
     racedOwns := fun h => absurd h (by decide)
     unseenNotOwned := by decide
     heldInReset := fun h => absurd h (by decide) }, is_next (by decide)⟩

theorem wit_NoStepChangesThePlatform : ∃ t, step (gbre 0x105 0x1000 0 2) = .next t := is_next (by decide)

/-- A CMD write by the host and by another master; a Complete; a reset. -/
theorem wit_BusyRisesByAcceptAndFallsByComplete :
    (∃ t, step { State.reset with host := [.busWrite 0x10 (bytesOfWord 1)] } = .next t ∧ t.status.busy = true) ∧
    (∃ t, step { State.reset with turns := [.other (.busWrite 0x10 (bytesOfWord 1))] } = .next t ∧
      t.status.busy = true) ∧
    (∃ t, step (pn 0x001 1) = .next t ∧ t.status.busy = false ∧ (pn 0x001 1).status.busy = true) ∧
    ∃ t, step { pn 0x001 1 with turns := [.resetOn] } = .next t ∧ t.status.busy = false :=
  ⟨⟨_, eq_next State.reset (by decide), by decide⟩, ⟨_, eq_next State.reset (by decide), by decide⟩,
    ⟨_, eq_next State.reset (by decide), by decide, by decide⟩, _, eq_next State.reset (by decide), by decide⟩

theorem wit_DoutChangesOnlyByPermutationCommands :
    (∃ t, step (pn 0x001 1) = .next t ∧ t.dout ≠ (pn 0x001 1).dout) ∧
    ∃ t, step { State.reset with dout := 5, turns := [.resetOn] } = .next t ∧ t.dout ≠ 5 :=
  ⟨⟨_, eq_next State.reset (by decide), by decide⟩, _, eq_next State.reset (by decide), by decide⟩

/-- A poll comes first, then the Complete. -/
theorem wit_CommandInFlightCompletes : let s := polling (pn 0x001 1)
    s.status.busy = true ∧ s.resetAsserted = false ∧
    ∀ k, k ≤ s.turns.length + 1 → ∃ t, Host.Core.run Sys2Proof.core k s = .next t := by
  refine ⟨by decide, by decide, fun k hk => ?_⟩
  have hk : k ≤ 2 := hk
  have h : ∀ j, j ≤ 2 → (after (Host.Core.run Sys2Proof.core j (polling (pn 0x001 1)))).isSome = true := by decide
  exact is_next (h k hk)

end Sys2Proof.Tests
end

section
/-! SUPPORT. The registers at reset, ID as a word, the offsets that ignore a write, and the statements on the register
window settled from them (10_state R23, R24, R27, R42, R47). -/

namespace Sys2Proof.Machine

/-! ### ID -/

/-- Fields that do not overlap add as they are joined by OR. -/
theorem ofNat_field_add {w a b i : Nat} (h : b < 2 ^ i) :
    BitVec.ofNat w (a * 2 ^ i + b) = (BitVec.ofNat w a <<< i) ||| BitVec.ofNat w b := by
  have hadd : a * 2 ^ i + b = a <<< i ||| b := by rw [← Nat.shiftLeft_eq, Nat.shiftLeft_add_eq_or_of_lt h]
  refine BitVec.eq_of_getLsbD_eq (fun k hk => ?_)
  have hsub : k - i < w := by omega
  simp only [hadd, BitVec.getLsbD_or, BitVec.getLsbD_shiftLeft, BitVec.getLsbD_ofNat, Nat.testBit_or,
    Nat.testBit_shiftLeft, hk, hsub, decide_true, Bool.true_and, ge_iff_le, ← not_lt, decide_not]

/-- ID in its fields: WIDTH, REV, MAGIC (10_state R26, R27). -/
theorem readReg_id (s : State) :
    readReg s 0x00 = (BitVec.ofNat 64 (addrW s.platform) <<< 40) ||| (1#64 <<< 32) ||| 0x42525831#64 := by
  have hlow : 0x01 * 2 ^ 32 + 0x42525831 < 2 ^ 40 := by norm_num
  calc readReg s 0x00
      = BitVec.ofNat 64 (addrW s.platform * 2 ^ 40 + (0x01 * 2 ^ 32 + 0x42525831)) := by
        rw [← Nat.add_assoc]; rfl
    _ = _ := by
        rw [ofNat_field_add hlow, ofNat_field_add (by norm_num), BitVec.or_assoc]

/-! ### Reset -/

theorem resetOn_brxAtReset (p : Config.Platform) : BrxAtReset (State.resetOn p) :=
  ⟨rfl, rfl, rfl, rfl, rfl, rfl, rfl, rfl⟩

@[simp] theorem addrBits_zero (p : Config.Platform) : addrBits p 0 = 0 := by simp [addrBits]

@[simp] theorem statusWord_afterReset : statusWord ⟨false, false, false, .ok⟩ = 0 := by decide

/-- At reset every offset but ID's reads 0 (10_state R47). -/
theorem readReg_of_brxAtReset {s : State} (h : BrxAtReset s) {off : Nat} (hoff : off ≠ 0x00) :
    readReg s off = 0 := by
  unfold readReg
  split
  · exact absurd rfl hoff
  · rw [h.status, statusWord_afterReset]
  · exact h.cmd
  · exact h.din
  · exact h.dout
  · rw [srcReg, h.src, addrBits_zero]
  · rw [dstReg, h.dst, addrBits_zero]
  · exact h.len
  · rfl

/-! ### Reserved offsets and offsets that ignore a write -/

/-- No register stands at a reserved offset (10_state R23). -/
theorem readReg_reserved (s : State) {off : Nat} (h : 0x40 ≤ off) : readReg s off = 0 := by
  rw [readReg]
  all_goals omega

/-- Only CMD, DIN, SRC, DST and LEN take a write (10_state R23, R24). -/
theorem writeReg_ignored (s : State) {off : Nat} (v : Word)
    (h : off ∉ [0x10, 0x18, 0x28, 0x30, 0x38]) : writeReg s off v = s := by
  simp only [List.mem_cons, List.not_mem_nil, or_false, not_or] at h
  rw [writeReg]
  all_goals omega

/-- An aligned write at an offset that ignores it changes the reply only, with reset asserted or not. -/
theorem busWrite_ignored (s : State) {off : Nat} (v : Word) (hoff : off < 0x100) (h8 : off % 8 = 0)
    (h : off ∉ [0x10, 0x18, 0x28, 0x30, 0x38]) :
    busWrite s (brxBase s.platform + off) (bytesOfWord v) = s.setReply .taken := by
  cases hr : s.resetAsserted with
  | false => rw [busWrite_aligned s hoff h8 (bytesOfWord_length v) hr, writeReg_ignored s _ h]
  | true =>
    obtain ⟨htouch, hfull⟩ := window_aligned s.platform hoff h8
    simp [busWrite, bytesOfWord_length, htouch, hfull, hr]

/-! ### CMD -/

/-- A CMD write while BUSY = 1 is the rejected one (10_state R42). -/
theorem writeReg_cmd_busy {s : State} (hb : s.status.busy = true) (v : Word) : writeReg s 0x10 v = s.reject :=
  if_pos hb

/-! ### The statements -/

/-- Settles O1: ID by its fields, the other registers because the BRX part is at reset. -/
theorem resetGivesEveryRegisterItsValue : Obligations.ResetGivesEveryRegisterItsValue := by
  intro p
  have hreset := resetOn_brxAtReset p
  have hzero : ∀ {off : Nat}, off ≠ 0x00 → readReg (State.resetOn p) off = 0 := readReg_of_brxAtReset hreset
  exact ⟨readReg_id _, hreset.status, hzero (by decide), hzero (by decide), hzero (by decide), hzero (by decide),
    hzero (by decide), hzero (by decide), hzero (by decide), hreset.cur, rfl⟩

/-- Settles O2: the constant by its fields, and its value at the reference width. -/
theorem idReadsItsConstantAlways : Obligations.IdReadsItsConstantAlways := by
  intro s
  refine ⟨readReg_id s, fun hw => ?_⟩
  rw [readReg_id, hw]
  decide

/-- Settles O4: no register stands at the offset to be read, and none takes the write. -/
theorem reservedOffsetsReadZeroIgnoreWrites : Obligations.ReservedOffsetsReadZeroIgnoreWrites := by
  intro s off hlo hhi h8
  have hoff : off < 0x100 := by omega
  have hzero : bytesOfWord 0 = [0, 0, 0, 0, 0, 0, 0, 0] := by decide
  refine ⟨?_, fun v => busWrite_ignored s v hoff h8 ?_⟩
  · rw [busRead_aligned s hoff h8, readReg_reserved s hlo, hzero]
  · simp only [List.mem_cons, List.not_mem_nil, or_false]
    omega

/-- Settles O5: the three offsets are among those that ignore a write. -/
theorem readOnlyRegisterWritesIgnored : Obligations.ReadOnlyRegisterWritesIgnored := by
  rintro s off v (rfl | rfl | rfl)
  all_goals exact busWrite_ignored s v (by decide) (by decide) (by decide)

/-- Settles O12: the write reaches CMD and is the rejected one, which sets OVR. -/
theorem commandWriteWhileBusyOnlySetsOvr : Obligations.CommandWriteWhileBusyOnlySetsOvr := by
  intro s v hb hr
  rw [busWrite_aligned s (by decide) (by decide) (bytesOfWord_length v) hr, writeReg_cmd_busy hb]
  rfl

end Sys2Proof.Machine
end

section
/-! SUPPORT. The decoder as the inverse of the encoder, the bits that a mask of the opcode map leaves open, and the
statements on the legal words settled from them (30_encoding R70 to R77). -/

namespace Sys2Proof.Machine

/-! ### Fields and commands -/

theorem instrOfFields_fields (i : Instr) : instrOfFields i.fields = .ok i := by
  cases i with
  | swap32 | swap64 | frev32 | frev64 => rfl
  | revip sp => cases sp <;> rfl
  | revcp sp dp => cases sp <;> cases dp <;> rfl

/-- The arm of a command that takes no reference (30_encoding R74). -/
theorem noRefsArm_eq_ok_iff {sp dp : Bool} {i j : Instr} :
    (if sp || dp then .error .refNotTaken else .ok j : Except DecodeReject Instr) = .ok i ↔
      j = i ∧ sp = false ∧ dp = false := by
  cases sp <;> cases dp <;> simp

/-- No command has a reserved field set (30_encoding R70). -/
theorem reservedFields_of_instrOfFields {f : Fields} {i : Instr} (h : instrOfFields f = .ok i) :
    f.res0 = 0 ∧ f.res1 = 0 ∧ f.res2 = 0 := by
  by_contra hres
  rw [instrOfFields, if_pos (by tauto)] at h
  cases h

/-- Fields decode to a command only when they are that command's fields. -/
theorem instrOfFields_eq_ok_iff {f : Fields} {i : Instr} : instrOfFields f = .ok i ↔ f = i.fields := by
  refine ⟨fun h => ?_, fun h => h ▸ instrOfFields_fields i⟩
  obtain ⟨op, res0, sp, dp, res1, res2⟩ := f
  obtain ⟨rfl, rfl, rfl⟩ := reservedFields_of_instrOfFields h
  have hop : ∀ {n}, op.toNat = n → op = BitVec.ofNat 4 n := fun hn => by
    rw [← hn, BitVec.ofNat_toNat, BitVec.setWidth_eq]
  simp only [instrOfFields, ne_eq, not_true_eq_false, or_self, if_false] at h
  split at h
  case h_1 | h_8 => cases h
  case h_2 hk | h_3 hk | h_4 hk | h_5 hk =>
    obtain ⟨rfl, rfl, rfl⟩ := noRefsArm_eq_ok_iff.mp h
    rw [hop hk]
    rfl
  case h_6 hk =>
    cases dp with
    | true => cases h
    | false =>
      cases h
      rw [hop hk]
      rfl
  case h_7 hk =>
    cases h
    rw [hop hk]
    rfl

/-! ### Words and commands -/

/-- The encoder sets a command's fields and nothing else (30_encoding R75). -/
@[simp] theorem fieldsOf_encode : ∀ i : Instr, fieldsOf (encode i) = i.fields
  | .swap32 => Laws.EncodeLegal.swap32.2.1
  | .swap64 => Laws.EncodeLegal.swap64.2.1
  | .frev32 => Laws.EncodeLegal.frev32.2.1
  | .frev64 => Laws.EncodeLegal.frev64.2.1
  | .revip sp => (Laws.EncodeLegal.revip sp).2.1
  | .revcp sp dp => (Laws.EncodeLegal.revcp sp dp).2.1

/-- A word decodes to a command exactly when it is that command's CMD value. -/
theorem decode_eq_ok_iff {v : Word} {i : Instr} : decode v = .ok i ↔ v = encode i := by
  rw [decode, instrOfFields_eq_ok_iff, ← fieldsOf_encode]
  exact ⟨fieldsOf_injective, congrArg fieldsOf⟩

/-! ### The formula `Legal` -/

theorem legalWord_encode (i : Instr) : LegalWord (encode i) := by
  unfold LegalWord
  cases i with
  | swap32 | swap64 | frev32 | frev64 => decide
  | revip sp => cases sp <;> decide
  | revcp sp dp => cases sp <;> cases dp <;> decide

/-- A field of a field is a field of the word. -/
theorem extractLsb'_extractLsb'_add {w a n b m : Nat} (v : BitVec w) (h : b + m ≤ n) :
    (v.extractLsb' a n).extractLsb' b m = v.extractLsb' (a + b) m := by
  refine BitVec.eq_of_getLsbD_eq (fun k hk => ?_)
  have hin : b + k < n := by omega
  simp [hk, hin, Nat.add_assoc]

/-- `v[63:10] = 0` is both high reserved fields at once (30_encoding R70, R76). -/
theorem fieldsOf_reserved_of_highBits {v : Word} (h : v.extractLsb' 10 54 = 0) :
    (fieldsOf v).res1 = 0 ∧ (fieldsOf v).res2 = 0 := by
  have hres1 := extractLsb'_extractLsb'_add (a := 10) (n := 54) (b := 0) (m := 22) v (by decide)
  have hres2 := extractLsb'_extractLsb'_add (a := 10) (n := 54) (b := 22) (m := 32) v (by decide)
  rw [h] at hres1 hres2
  exact ⟨hres1.symm, hres2.symm⟩

/-- `v[9:8] = 0b00` is both present bits clear (30_encoding R70, R76). -/
theorem fieldsOf_refs_of_presentBits {v : Word} (h : v.extractLsb' 8 2 = 0) :
    (fieldsOf v).sp = false ∧ (fieldsOf v).dp = false := by
  have hbit : ∀ k, k < 2 → v.getLsbD (8 + k) = false := fun k hk => by
    simpa [hk] using congrArg (fun b : BitVec 2 => b.getLsbD k) h
  exact ⟨hbit 0 (by decide), hbit 1 (by decide)⟩

/-- Each disjunct of `Legal` names a command whose fields the word has. -/
theorem exists_fields_of_legalWord {v : Word} (h : LegalWord v) : ∃ i : Instr, fieldsOf v = i.fields := by
  obtain ⟨⟨hhigh, hres0⟩, hform⟩ := h
  obtain ⟨hres1, hres2⟩ := fieldsOf_reserved_of_highBits hhigh
  have hfields : ∀ {op sp dp}, (fieldsOf v).op = op → (fieldsOf v).sp = sp → (fieldsOf v).dp = dp →
      fieldsOf v = ⟨op, 0, sp, dp, 0, 0⟩ := by
    rintro _ _ _ rfl rfl rfl
    rw [← hres0, ← hres1, ← hres2]
    rfl
  rcases hform with ⟨hop, hrefs⟩ | ⟨hop, hdp⟩ | hop
  · obtain ⟨hsp, hdp⟩ := fieldsOf_refs_of_presentBits hrefs
    simp only [List.mem_cons, List.not_mem_nil, or_false] at hop
    rcases hop with hop | hop | hop | hop
    · exact ⟨.swap32, hfields hop hsp hdp⟩
    · exact ⟨.swap64, hfields hop hsp hdp⟩
    · exact ⟨.frev32, hfields hop hsp hdp⟩
    · exact ⟨.frev64, hfields hop hsp hdp⟩
  · exact ⟨.revip _, hfields hop rfl hdp⟩
  · exact ⟨.revcp _ _, hfields hop rfl rfl⟩

/-- The decoder takes exactly the words of the formula `Legal` (30_encoding R76). -/
theorem exists_decode_ok_iff_legalWord (v : Word) : (∃ i, decode v = .ok i) ↔ LegalWord v := by
  constructor
  · rintro ⟨i, hi⟩
    exact decode_eq_ok_iff.mp hi ▸ legalWord_encode i
  · intro h
    obtain ⟨i, hi⟩ := exists_fields_of_legalWord h
    exact ⟨i, instrOfFields_eq_ok_iff.mpr hi⟩

/-- The sequencer completes an illegal command word with ILLEGAL_CMD (10_state R43, 30_encoding R77). -/
theorem sequencerTurn_illegal {s : State} (hb : s.status.busy = true) (h : ¬LegalWord s.cur.cmd) :
    sequencerTurn s = .next (s.complete .illegalCmd) := by
  rw [sequencerTurn, if_pos hb]
  cases hd : decode s.cur.cmd with
  | ok i => exact absurd ((exists_decode_ok_iff_legalWord _).mp ⟨i, hd⟩) h
  | error e => rfl

/-! ### The masks of the opcode map -/

/-- A mask of all ones leaves no bit open. -/
theorem and_fullMask (v : Word) : v &&& 0xFFFFFFFFFFFFFFFF#64 = v := BitVec.and_allOnes

theorem and_spBit (v : Word) : v &&& 0x100 = if v.getLsbD 8 then 0x100 else 0 := BitVec.and_twoPow v 8

theorem and_dpBit (v : Word) : v &&& 0x200 = if v.getLsbD 9 then 0x200 else 0 := BitVec.and_twoPow v 9

/-- REVIP's mask leaves SP open (30_encoding R75). -/
theorem eq_revipMask_or_sp (v : Word) :
    v = (v &&& 0xFFFFFFFFFFFFFEFF#64) ||| (if v.getLsbD 8 then 0x100 else 0) := by
  rw [← and_spBit, ← BitVec.and_or_distrib_left]
  exact (and_fullMask v).symm

/-- REVCP's mask leaves SP and DP open (30_encoding R75). -/
theorem eq_revcpMask_or_sp_or_dp (v : Word) :
    v = (v &&& 0xFFFFFFFFFFFFFCFF#64) ||| (if v.getLsbD 8 then 0x100 else 0) |||
      (if v.getLsbD 9 then 0x200 else 0) := by
  rw [← and_spBit, ← and_dpBit, ← BitVec.and_or_distrib_left, ← BitVec.and_or_distrib_left]
  exact (and_fullMask v).symm

theorem encode_revip_and_mask (sp : Bool) : encode (.revip sp) &&& 0xFFFFFFFFFFFFFEFF#64 = 5#64 := by
  cases sp <;> decide

theorem encode_revcp_and_mask (sp dp : Bool) : encode (.revcp sp dp) &&& 0xFFFFFFFFFFFFFCFF#64 = 6#64 := by
  cases sp <;> cases dp <;> decide

/-- A row whose mask is all ones selects its one word. -/
theorem fullMask_eq_iff_decode {v : Word} {i : Instr} :
    v &&& 0xFFFFFFFFFFFFFFFF#64 = encode i ↔ decode v = .ok i := by
  rw [and_fullMask, decode_eq_ok_iff]

/-- REVIP's row selects its two words (30_encoding R75). -/
theorem revipMask_eq_iff_decode {v : Word} :
    v &&& 0xFFFFFFFFFFFFFEFF#64 = 5#64 ↔ decode v = .ok (.revip (v.getLsbD 8)) := by
  rw [decode_eq_ok_iff]
  constructor
  · intro h
    exact (eq_revipMask_or_sp v).trans (by rw [h]; rfl)
  · intro h
    rw [h, encode_revip_and_mask]

/-- REVCP's row selects its four words (30_encoding R75). -/
theorem revcpMask_eq_iff_decode {v : Word} :
    v &&& 0xFFFFFFFFFFFFFCFF#64 = 6#64 ↔ decode v = .ok (.revcp (v.getLsbD 8) (v.getLsbD 9)) := by
  rw [decode_eq_ok_iff]
  constructor
  · intro h
    exact (eq_revcpMask_or_sp_or_dp v).trans (by rw [h]; rfl)
  · intro h
    rw [h, encode_revcp_and_mask]

/-! ### The ten legal words -/

/-- The legal CMD values as 30_encoding R75 lists them. -/
def legalWords : List Word := [0x001, 0x002, 0x003, 0x004, 0x005, 0x105, 0x006, 0x106, 0x206, 0x306]

/-- Every command with every present bit it takes, in the order of their words. -/
def allInstrs : List Instr :=
  [.swap32, .swap64, .frev32, .frev64, .revip false, .revip true, .revcp false false, .revcp true false,
    .revcp false true, .revcp true true]

theorem mem_allInstrs (i : Instr) : i ∈ allInstrs := by
  cases i with
  | swap32 | swap64 | frev32 | frev64 => decide
  | revip sp => cases sp <;> decide
  | revcp sp dp => cases sp <;> cases dp <;> decide

theorem map_encode_allInstrs : allInstrs.map encode = legalWords := by decide

theorem exists_decode_ok_iff_mem_legalWords (v : Word) : (∃ i, decode v = .ok i) ↔ v ∈ legalWords := by
  simp only [← map_encode_allInstrs, List.mem_map, mem_allInstrs, true_and, decode_eq_ok_iff,
    eq_comm (a := v)]

/-! ### The statements -/

/-- Settles O14: a legal word has the fields of a command and the decoder inverts the encoder; so an illegal word meets
the sequencer's ILLEGAL_CMD arm. -/
theorem onlyLegalWordsRunOthersCompleteIllegal : Obligations.OnlyLegalWordsRunOthersCompleteIllegal :=
  ⟨exists_decode_ok_iff_legalWord, fun _ hb h => sequencerTurn_illegal hb h⟩

/-- Settles O15: a word is what its row's mask keeps joined with the present bits it leaves open. -/
theorem rowsOfTheOpcodeMapDecode : Obligations.RowsOfTheOpcodeMapDecode := fun v =>
  ⟨fullMask_eq_iff_decode (i := .swap32), fullMask_eq_iff_decode (i := .swap64),
    fullMask_eq_iff_decode (i := .frev32), fullMask_eq_iff_decode (i := .frev64),
    revipMask_eq_iff_decode, revcpMask_eq_iff_decode, exists_decode_ok_iff_mem_legalWords v⟩

end Sys2Proof.Machine
end

section
/-! SUPPORT. The bytes of a value under each bit operation, of which the stage networks and the byte-index loops are
made; the value whose bytes stand in reverse order; and the statements on the permutation network settled from them
(40_permutation_network R100 to R114). -/

namespace Sys2Proof

/-! ### The bytes of a value -/

theorem byteOf_and {w : Nat} (u v : BitVec w) (k : Nat) : byteOf (u &&& v) k = byteOf u k &&& byteOf v k :=
  BitVec.extractLsb'_and

theorem byteOf_or {w : Nat} (u v : BitVec w) (k : Nat) : byteOf (u ||| v) k = byteOf u k ||| byteOf v k :=
  BitVec.extractLsb'_or

/-- A byte past the value's width is 0. -/
theorem byteOf_eq_zero {w : Nat} (v : BitVec w) {k : Nat} (hk : w ≤ 8 * k) : byteOf v k = 0 := by
  refine BitVec.eq_of_getLsbD_eq (fun j _ => ?_)
  rw [byteOf_getLsbD, BitVec.getLsbD_of_ge v _ (by omega), Bool.and_false, BitVec.ofNat_eq_ofNat, BitVec.getLsbD_zero]

/-- Complement acts on each byte inside the value. -/
theorem byteOf_not {w : Nat} (v : BitVec w) {k : Nat} (hk : 8 * k + 8 ≤ w) : byteOf (~~~v) k = ~~~byteOf v k := by
  refine BitVec.eq_of_getLsbD_eq (fun j hj => ?_)
  have hin : 8 * k + j < w := by omega
  simp only [byteOf_getLsbD, BitVec.getLsbD_not, hj, hin, decide_true, Bool.true_and]

/-- A left shift by whole bytes moves byte `k - m` to byte `k` and fills with zero bytes. -/
theorem byteOf_shiftLeft {w : Nat} (v : BitVec w) (m : Nat) {k : Nat} (hk : 8 * k + 8 ≤ w) :
    byteOf (v <<< (8 * m)) k = if m ≤ k then byteOf v (k - m) else 0 := by
  refine BitVec.eq_of_getLsbD_eq (fun j hj => ?_)
  have hin : 8 * k + j < w := by omega
  rw [byteOf_getLsbD, BitVec.getLsbD_shiftLeft]
  split
  · next hmk =>
    have hge : ¬ 8 * k + j < 8 * m := by omega
    have hsub : 8 * k + j - 8 * m = 8 * (k - m) + j := by omega
    simp only [byteOf_getLsbD, hin, hge, hsub, decide_true, decide_false, Bool.not_false, Bool.true_and]
  · next hmk =>
    have hlt : 8 * k + j < 8 * m := by omega
    simp [hlt]

/-- A right shift by whole bytes moves byte `m + k` to byte `k`. -/
theorem byteOf_ushiftRight {w : Nat} (v : BitVec w) (m k : Nat) : byteOf (v >>> (8 * m)) k = byteOf v (m + k) := by
  refine BitVec.eq_of_getLsbD_eq (fun j _ => ?_)
  simp only [byteOf_getLsbD, BitVec.getLsbD_ushiftRight, Nat.mul_add, Nat.add_assoc]

/-- A byte as a longer value is its byte 0, under zero bytes. -/
theorem byteOf_setWidth {w : Nat} (b : Byte) {k : Nat} (hk : 8 * k + 8 ≤ w) :
    byteOf (b.setWidth w) k = if k = 0 then b else 0 := by
  rw [byteOf, BitVec.extractLsb'_setWidth_of_le hk]
  split
  · next h0 => rw [h0, Nat.mul_zero, BitVec.extractLsb'_eq_self]
  · next h0 => exact byteOf_eq_zero b (by omega)

theorem and_ffByte (b : Byte) : b &&& 0xFF#8 = b := BitVec.and_allOnes

/-- A value is its bytes (00_scope R11). -/
theorem eq_of_byteOf_eq {w n : Nat} (hw : w ≤ 8 * n) {u v : BitVec w} (h : ∀ k, k < n → byteOf u k = byteOf v k) :
    u = v := by
  refine BitVec.eq_of_getLsbD_eq (fun i hi => ?_)
  have hbyte := congrArg (fun b : Byte => b.getLsbD (i % 8)) (h (i / 8) (by omega))
  have hmod : i % 8 < 8 := Nat.mod_lt _ (by decide)
  simpa only [byteOf_getLsbD, hmod, decide_true, Bool.true_and, Nat.div_add_mod] using hbyte

/-! ### Byte reversal -/

/-- The `n` bytes of `r` are those of `v` in reverse order: `r = rev_n(v)` (00_scope R16). -/
def IsByteReverse {w : Nat} (n : Nat) (v r : BitVec w) : Prop := ∀ k, k < n → byteOf r k = byteOf v (n - 1 - k)

/-- A value has one byte reverse. -/
theorem IsByteReverse.unique {w n : Nat} (hw : w ≤ 8 * n) {v r r' : BitVec w} (h : IsByteReverse n v r)
    (h' : IsByteReverse n v r') : r = r' :=
  eq_of_byteOf_eq hw (fun k hk => (h k hk).trans (h' k hk).symm)

/-- Byte reversal is symmetric, so the reverse of the reverse is the value itself. -/
theorem IsByteReverse.symm {w n : Nat} {v r : BitVec w} (h : IsByteReverse n v r) : IsByteReverse n r v := by
  intro k hk
  rw [h (n - 1 - k) (by omega), Nat.sub_sub_self (by omega)]

end Sys2Proof

namespace Sys2Proof.Machine

/-! ### The byte-index loop -/

/-- `r[8i+7:8i] <- b` sets byte `i` and keeps the others. -/
theorem byteOf_putByte {w : Nat} (r : BitVec w) (i : Nat) (b : Byte) {k : Nat} (hk : 8 * k + 8 ≤ w) :
    byteOf (putByte r i b) k = if k = i then b else byteOf r k := by
  have hlane : BitVec.ofNat w 0xFF = (0xFF#8).setWidth w := BitVec.eq_of_toNat_eq (by simp)
  have hin : 8 * (k - i) + 8 ≤ w := by omega
  rw [putByte, hlane, byteOf_or, byteOf_and, byteOf_not _ hk, byteOf_shiftLeft _ _ hk, byteOf_shiftLeft _ _ hk,
    byteOf_setWidth _ hin, byteOf_setWidth _ hin]
  rcases Nat.lt_trichotomy k i with hlt | rfl | hgt
  · simp [hlt.ne, hlt.not_ge, and_ffByte]
  · simp
  · simp [hgt.ne', hgt.le, Nat.sub_ne_zero_of_lt hgt, and_ffByte]

/-- After `m` iterations the low `m` bytes are those of the reverse (40_permutation_network R105). -/
theorem byteOf_byteLoop {w : Nat} (v : BitVec w) (n m : Nat) : ∀ k, k < m → 8 * k + 8 ≤ w →
    byteOf (byteLoop v n m) k = byteOf v (n - 1 - k) := by
  induction m with
  | zero => intro k hk; omega
  | succ m ih =>
    intro k hk hw
    rw [byteLoop, byteOf_putByte _ _ _ hw]
    split
    · next h => rw [h]
    · next h => exact ih k (by omega) hw

/-- The whole loop reverses the bytes (40_permutation_network R105). -/
theorem byteLoop_isByteReverse {w n : Nat} (hw : 8 * n ≤ w) (v : BitVec w) : IsByteReverse n v (byteLoop v n n) :=
  fun k hk => byteOf_byteLoop v n n k hk (by omega)

/-! ### The stage networks -/

/-- Stage 1 of the 32-bit network exchanges the bytes whose indices differ in bit 0. -/
theorem byteOf_stage8of32 (v : BitVec 32) {k : Nat} (hk : k < 4) : byteOf (stage8of32 v) k = byteOf v (k ^^^ 1) := by
  rw [stage8of32, byteOf_or, byteOf_and, byteOf_and, byteOf_shiftLeft v 1 (by omega), byteOf_ushiftRight v 1]
  interval_cases k <;> simp [byteOf, and_ffByte]

/-- Stage 2 of the 32-bit network exchanges the bytes whose indices differ in bit 1. -/
theorem byteOf_stage16of32 (v : BitVec 32) {k : Nat} (hk : k < 4) : byteOf (stage16of32 v) k = byteOf v (k ^^^ 2) := by
  rw [stage16of32, byteOf_or, byteOf_and, byteOf_shiftLeft v 2 (by omega), byteOf_ushiftRight v 2]
  interval_cases k <;> simp [byteOf, and_ffByte]

/-- Stage 1 of the 64-bit network exchanges the bytes whose indices differ in bit 0. -/
theorem byteOf_stage8of64 (v : Word) {k : Nat} (hk : k < 8) : byteOf (stage8of64 v) k = byteOf v (k ^^^ 1) := by
  rw [stage8of64, byteOf_or, byteOf_and, byteOf_and, byteOf_shiftLeft v 1 (by omega), byteOf_ushiftRight v 1]
  interval_cases k <;> simp [byteOf, and_ffByte]

/-- Stage 2 of the 64-bit network exchanges the bytes whose indices differ in bit 1. -/
theorem byteOf_stage16of64 (v : Word) {k : Nat} (hk : k < 8) : byteOf (stage16of64 v) k = byteOf v (k ^^^ 2) := by
  rw [stage16of64, byteOf_or, byteOf_and, byteOf_and, byteOf_shiftLeft v 2 (by omega), byteOf_ushiftRight v 2]
  interval_cases k <;> simp [byteOf, and_ffByte]

/-- Stage 3 of the 64-bit network exchanges the bytes whose indices differ in bit 2. -/
theorem byteOf_stage32of64 (v : Word) {k : Nat} (hk : k < 8) : byteOf (stage32of64 v) k = byteOf v (k ^^^ 4) := by
  have hindex : ∀ k, k < 8 → k ^^^ 4 = if 4 ≤ k then k - 4 else 4 + k := by decide
  rw [stage32of64, byteOf_or, byteOf_shiftLeft v 4 (by omega), byteOf_ushiftRight v 4, hindex k hk]
  split
  · rw [byteOf_eq_zero v (show 64 ≤ 8 * (4 + k) by omega), BitVec.ofNat_eq_ofNat, BitVec.or_zero]
  · rw [BitVec.ofNat_eq_ofNat, BitVec.zero_or]

/-- The two stages together complement both bits of a byte's index (40_permutation_network R109). -/
theorem network32_isByteReverse (v : BitVec 32) : IsByteReverse 4 v (network32 v) := by
  intro k hk
  have hindex : ∀ k, k < 4 → k ^^^ 2 < 4 ∧ (k ^^^ 2) ^^^ 1 = 4 - 1 - k := by decide
  obtain ⟨hlt, hrev⟩ := hindex k hk
  rw [network32, byteOf_stage16of32 _ hk, byteOf_stage8of32 _ hlt, hrev]

/-- The three stages together complement all three bits of a byte's index (40_permutation_network R109). -/
theorem network64_isByteReverse (v : Word) : IsByteReverse 8 v (network64 v) := by
  intro k hk
  have hindex : ∀ k, k < 8 → k ^^^ 4 < 8 ∧ (k ^^^ 4) ^^^ 2 < 8 ∧ ((k ^^^ 4) ^^^ 2) ^^^ 1 = 8 - 1 - k := by
    decide
  obtain ⟨hlt, hlt', hrev⟩ := hindex k hk
  rw [network64, byteOf_stage32of64 _ hk, byteOf_stage16of64 _ hlt, byteOf_stage8of64 _ hlt', hrev]

/-- The two-stage network and the byte-index loop give the same value (40_permutation_network R110). -/
theorem network32_eq_byteLoop (v : BitVec 32) : network32 v = byteLoop v 4 4 :=
  (network32_isByteReverse v).unique (by decide) (byteLoop_isByteReverse (by decide) v)

/-- The three-stage network and the byte-index loop give the same value (40_permutation_network R110). -/
theorem network64_eq_byteLoop (v : Word) : network64 v = byteLoop v 8 8 :=
  (network64_isByteReverse v).unique (by decide) (byteLoop_isByteReverse (by decide) v)

/-- The two-stage network is its own inverse. -/
theorem network32_network32 (v : BitVec 32) : network32 (network32 v) = v :=
  (network32_isByteReverse _).unique (by decide) (network32_isByteReverse v).symm

/-- The three-stage network is its own inverse. -/
theorem network64_network64 (v : Word) : network64 (network64 v) = v :=
  (network64_isByteReverse _).unique (by decide) (network64_isByteReverse v).symm

/-! ### The four commands -/

/-- A PN command changes DOUT and STATUS only (40_permutation_network R100). -/
theorem finishPn_eq (s : State) (r : Word) :
    finishPn s r = .next { s with dout := r, status := completedStatus s .ok } := rfl

/-- What the 32-bit commands write for the operand `d`: the low half reversed, zero-extended (40_permutation_network
R102). -/
def reverseLow32 (d : Word) : Word := (network32 (d.extractLsb' 0 32)).setWidth 64

/-- A second pass reads the low 32 bits, which hold the first pass's whole result. -/
theorem reverseLow32_reverseLow32 (d : Word) : reverseLow32 (reverseLow32 d) = (d.extractLsb' 0 32).setWidth 64 := by
  rw [reverseLow32, reverseLow32, BitVec.extractLsb'_setWidth_of_le (by decide), BitVec.extractLsb'_eq_self,
    network32_network32]

theorem exec_swap32 (s : State) : exec .swap32 s = finishPn s (reverseLow32 s.cur.din) := rfl

theorem exec_swap64 (s : State) : exec .swap64 s = finishPn s (network64 s.cur.din) := rfl

/-- FREV32 writes by its loop what SWAP32 writes by its network (40_permutation_network R110). -/
theorem exec_frev32 (s : State) : exec .frev32 s = finishPn s (reverseLow32 s.cur.din) := by
  rw [reverseLow32, network32_eq_byteLoop]
  rfl

/-- FREV64 writes by its loop what SWAP64 writes by its network (40_permutation_network R110). -/
theorem exec_frev64 (s : State) : exec .frev64 s = finishPn s (network64 s.cur.din) := by
  rw [network64_eq_byteLoop]
  rfl

/-! ### A command run again on its own result -/

/-- Accept latches DIN (10_state R41). -/
theorem accept_cur_din (s : State) (v : Word) : (s.accept v).cur.din = s.din := by
  rw [accept_eq, State.latch_cur]

/-- A command that writes `f` of its operand to DOUT, run again on its own result, writes `f` of that. -/
theorem exec_twice_of_finishPn {i : Instr} {f : Word → Word} (hexec : ∀ s, exec i s = finishPn s (f s.cur.din))
    {s : State} {d : Word} (hd : f (f s.cur.din) = d) : ∃ t w : State, exec i s = .next t ∧
      exec i ((writeReg t 0x18 t.dout).accept (encode i)) = .next w ∧ w.status.err = .ok ∧ w.dout = d := by
  refine ⟨_, _, hexec s, hexec _, rfl, ?_⟩
  rw [accept_cur_din]
  exact hd

/-! ### The statements -/

/-- Settles O21: the loop moves the bytes by index. -/
theorem floatReverseThirtyTwoMovesBytesByIndex : Obligations.FloatReverseThirtyTwoMovesBytesByIndex :=
  ⟨fun _ => decode_eq_ok_iff, fun s => ⟨_, byteLoop_isByteReverse (by decide) (din32 s), finishPn_eq s _⟩⟩

/-- Settles O22: the loop moves the bytes by index. -/
theorem floatReverseSixtyFourMovesBytesByIndex : Obligations.FloatReverseSixtyFourMovesBytesByIndex :=
  ⟨fun _ => decode_eq_ok_iff, fun s => ⟨_, byteLoop_isByteReverse (by decide) (din64 s), finishPn_eq s _⟩⟩

/-- Settles O23: each stage flips one bit of a byte's index, and flipping every bit of the index reverses the bytes. -/
theorem stageNetworksReverseBytes : Obligations.StageNetworksReverseBytes :=
  ⟨network32_isByteReverse, network64_isByteReverse⟩

/-- Settles O24: the network and the loop of a width both give the one byte reverse of the operand. -/
theorem integerAndFloatCommandsAgree : Obligations.IntegerAndFloatCommandsAgree := fun s =>
  ⟨(exec_swap32 s).trans (exec_frev32 s).symm, (exec_swap64 s).trans (exec_frev64 s).symm⟩

/-- Settles O25: the second run reverses the first run's result, which gives the operand back at the command's width. -/
theorem permutationCommandTwiceGivesTheOperandBack : Obligations.PermutationCommandTwiceGivesTheOperandBack := by
  intro s i hi
  simp only [List.mem_cons, List.not_mem_nil, or_false] at hi
  have h32 := reverseLow32_reverseLow32 s.cur.din
  have h64 := network64_network64 s.cur.din
  rcases hi with rfl | rfl | rfl | rfl
  · exact exec_twice_of_finishPn exec_swap32 (h32.trans (if_pos (by decide)).symm)
  · exact exec_twice_of_finishPn exec_swap64 (h64.trans (if_neg (by decide)).symm)
  · exact exec_twice_of_finishPn exec_frev32 (h32.trans (if_pos (by decide)).symm)
  · exact exec_twice_of_finishPn exec_frev64 (h64.trans (if_neg (by decide)).symm)

/-- Settles O19: the network's stages as the rule writes them. -/
theorem swapThirtyTwoWritesTheTwoStageResult : Obligations.SwapThirtyTwoWritesTheTwoStageResult := by
  refine ⟨fun _ => decode_eq_ok_iff, ?_⟩
  rintro s _ _ _ rfl rfl rfl
  exact finishPn_eq s _

/-- Settles O20: the network's stages as the rule writes them. -/
theorem swapSixtyFourWritesTheThreeStageResult : Obligations.SwapSixtyFourWritesTheThreeStageResult := by
  refine ⟨fun _ => decode_eq_ok_iff, ?_⟩
  rintro s _ _ _ _ rfl rfl rfl rfl
  exact finishPn_eq s _

end Sys2Proof.Machine
end

section
/-! SUPPORT. What it is for one memory to hold a region of another in reverse, that both buffer commands leave such a
memory when they complete with OK, and the statements on buffer reversal settled from it (41_buffer_reversal R120 to
R138). -/

namespace Sys2Proof.Machine

/-! ### A memory that holds a region in reverse -/

/-- `m'` holds at `dst` the `n` bytes that `m` holds at `src`, in reverse order, and elsewhere what `m` holds
(41_buffer_reversal R123, R125). -/
structure ReversesInto (m m' : Memory) (src dst n : Nat) : Prop where
  wf : m'.wf = true
  inside : ∀ k, k < n → m'.read (dst + k) = m.read (src + n - 1 - k)
  outside : ∀ a, ¬InRegion dst n a → m'.read a = m.read a

/-- Fewer than two bytes are their own reverse (41_buffer_reversal R122: the no-op guard changes no result). -/
theorem ReversesInto.of_short {m : Memory} (h : m.wf = true) (src : Nat) {n : Nat} (hn : n < 2) :
    ReversesInto m m src src n where
  wf := h
  inside k hk := congrArg m.read (by omega)
  outside _ _ := rfl

/-- The whole loop of REVIP reverses its region; the middle byte of an odd length stays, as its own mirror. -/
theorem swapPairs_reverses {m : Memory} (h : m.wf = true) (src n : Nat) :
    ReversesInto m (swapPairs m src n (n / 2)) src src n where
  wf := swapPairs_wf h src n _
  inside k hk := by
    rw [swapPairs_read h src n _ le_rfl]
    split <;> exact congrArg m.read (by omega)
  outside a ha := by
    unfold InRegion at ha
    rw [swapPairs_read h src n _ le_rfl, if_neg (by omega)]

/-- The whole loop of REVCP copies its input in reverse, where the regions share no byte. -/
theorem copyReversed_reverses {m : Memory} (h : m.wf = true) {src dst n : Nat}
    (hsep : ¬(src < dst + n ∧ dst < src + n)) :
    ReversesInto m (copyReversed m src dst n n) src dst n where
  wf := copyReversed_wf h src dst n n
  inside k hk := by
    rw [copyReversed_read h src dst n (by omega) n le_rfl, if_pos (by omega), Nat.add_sub_cancel_left]
  outside a ha := copyReversed_outside h src dst n n a ha

/-- Reversing a region that holds a reverse gives the bytes back (41_buffer_reversal R135). -/
theorem ReversesInto.read_twice {m m' u u' : Memory} {src n : Nat} (h : ReversesInto m m' src src n)
    (h' : ReversesInto u u' src src n) (hkeep : ∀ a, InRegion src n a → u.read a = m'.read a) :
    ∀ a, InRegion src n a → u'.read a = m.read a := by
  rintro a ⟨hlo, hhi⟩
  obtain ⟨i, rfl⟩ := Nat.exists_eq_add_of_le hlo
  have hi : i < n := by omega
  have hmirror : src + n - 1 - i = src + (n - 1 - i) := by omega
  calc u'.read (src + i)
      = u.read (src + (n - 1 - i)) := by rw [h'.inside i hi, hmirror]
    _ = m'.read (src + (n - 1 - i)) := hkeep _ ⟨by omega, by omega⟩
    _ = m.read (src + n - 1 - (n - 1 - i)) := h.inside _ (by omega)
    _ = m.read (src + i) := congrArg m.read (by omega)

/-- Two reversals of one region with nothing between them give the memory back, as a list. -/
theorem ReversesInto.eq_of_twice {m m' u' : Memory} {src n : Nat} (hm : m.wf = true)
    (h : ReversesInto m m' src src n) (h' : ReversesInto m' u' src src n) : u' = m := by
  refine Memory.eq_of_read h'.wf hm (fun a => ?_)
  by_cases ha : InRegion src n a
  · exact h.read_twice h' (fun _ _ => rfl) a ha
  · exact (h'.outside a ha).trans (h.outside a ha)

/-- The reverse of a stored pattern stores the pattern's byte reverse, in the byte order of the first
(41_buffer_reversal R136). -/
theorem ReversesInto.storesBytes {m m' : Memory} {src dst N : Nat} {v r : Word} {lsbFirst : Bool}
    (h : ReversesInto m m' src dst N) (hv : StoresBytes m src N v lsbFirst) (hr : IsByteReverse N v r) :
    StoresBytes m' dst N r lsbFirst := by
  intro k hk
  have hmirror : src + N - 1 - k = src + (N - 1 - k) := by omega
  rw [h.inside k hk, hmirror, hv _ (by omega)]
  cases lsbFirst with
  | true => exact (hr k hk).symm
  | false => exact (hr (N - 1 - k) (by omega)).symm

/-! ### The permutation commands' DOUT as a byte reverse -/

/-- The 32-bit commands reverse the low four bytes of the operand. -/
theorem reverseLow32_isByteReverse (d : Word) : IsByteReverse 4 d (reverseLow32 d) := by
  have hlow : ∀ k, k < 4 → byteOf (d.extractLsb' 0 32) k = byteOf d k := fun k hk => by
    rw [byteOf, extractLsb'_extractLsb'_add d (by omega), Nat.zero_add]
    rfl
  intro k hk
  rw [reverseLow32, byteOf, BitVec.extractLsb'_setWidth_of_le (by omega)]
  exact (network32_isByteReverse _ k hk).trans (hlow _ (by omega))

theorem dout_of_finishPn {s t : State} {v : Word} (h : finishPn s v = .next t) : t.dout = v := by
  cases h
  rfl

/-- DOUT holds the bytes of the operand in reverse, at the command's width (41_buffer_reversal R136). -/
theorem pn_dout_isByteReverse {N : Nat} {i : Instr} {q r : State}
    (hi : (N, i) ∈ ([(4, .swap32), (4, .frev32), (8, .swap64), (8, .frev64)] : List (Nat × Instr)))
    (h : exec i q = .next r) : IsByteReverse N q.cur.din r.dout := by
  simp only [List.mem_cons, Prod.mk.injEq, List.not_mem_nil, or_false] at hi
  rcases hi with ⟨rfl, rfl⟩ | ⟨rfl, rfl⟩ | ⟨rfl, rfl⟩ | ⟨rfl, rfl⟩
  · rw [dout_of_finishPn ((exec_swap32 q).symm.trans h)]
    exact reverseLow32_isByteReverse _
  · rw [dout_of_finishPn ((exec_frev32 q).symm.trans h)]
    exact reverseLow32_isByteReverse _
  · rw [dout_of_finishPn ((exec_swap64 q).symm.trans h)]
    exact network64_isByteReverse _
  · rw [dout_of_finishPn ((exec_frev64 q).symm.trans h)]
    exact network64_isByteReverse _

/-! ### The commands without a race -/

/-- A present reference and a length that is not a no-op's pass the first two guards. -/
theorem not_noop {sp : Bool} {short : Prop} (hsp : sp = true) (hn : ¬short) : ¬(sp = false ∨ short) := by
  simp [hsp, hn]

/-- REVIP's condition for MEM_FAULT excludes the admission of its whole pair set (41_buffer_reversal R128). -/
theorem not_revipAdmitted {p : Config.Platform} {src n : Nat}
    (h : ∃ a, InPairSet src n a ∧ (admits p .read a = false ∨ admits p .write a = false)) :
    ¬∀ a, InPairSet src n a → admits p .read a = true ∧ admits p .write a = true := by
  rw [← revipAdmitted_iff, Bool.not_eq_true, revipAdmitted_eq_false_iff]
  exact h

/-- REVCP's condition for MEM_FAULT excludes the admission of both its regions (41_buffer_reversal R128). -/
theorem not_revcpAdmitted {p : Config.Platform} {src dst n : Nat}
    (h : ∃ a, (InRegion src n a ∧ admits p .read a = false) ∨ (InRegion dst n a ∧ admits p .write a = false)) :
    ¬((∀ a, InRegion src n a → admits p .read a = true) ∧ ∀ a, InRegion dst n a → admits p .write a = true) := by
  rw [← revcpAdmitted_iff, Bool.not_eq_true, revcpAdmitted_eq_false_iff]
  exact h

/-- Without a race a buffer command ends by `complete` alone (41_buffer_reversal R120). -/
theorem eq_complete_of_finish {s t : State} (hr : s.raced = false) {w : Region} {err : ErrCode}
    (h : finish s w err = .next t) : t = s.complete err := by
  rw [finish_unraced hr] at h
  cases h
  rfl

theorem revip_absent_mem {s t : State} (hr : s.raced = false) (h : exec (.revip false) s = .next t) :
    t.mem = s.mem := by
  rw [eq_complete_of_finish hr h, State.complete_mem]

/-- A REVIP of a present buffer that completes with OK has reversed it: a no-op is the reversal of a short region. -/
theorem revip_ok_reverses {s t : State} (hwf : s.mem.wf = true) (hr : s.raced = false)
    (h : exec (.revip true) s = .next t) (hok : t.status.err = .ok) :
    ReversesInto s.mem t.mem s.cur.src.toNat s.cur.src.toNat s.cur.len.toNat := by
  have hpath := execRevip_path s true
  change execRevip true s = .next t at h
  generalize execRevip true s = r at hpath h
  cases hpath with
  | noop hn =>
    obtain rfl := eq_complete_of_finish hr h
    exact .of_short hwf _ (hn.resolve_left (by decide))
  | range | memFault =>
    obtain rfl := eq_complete_of_finish hr h
    cases hok
  | sideEffect => cases h
  | reverse =>
    obtain rfl := eq_complete_of_finish ((State.setMem_raced ..).trans hr) h
    exact swapPairs_reverses hwf _ _

/-- A REVCP between present references that completes with OK has copied its input in reverse. -/
theorem revcp_ok_reverses {s t : State} (hwf : s.mem.wf = true) (hr : s.raced = false)
    (h : exec (.revcp true true) s = .next t) (hok : t.status.err = .ok) :
    ReversesInto s.mem t.mem s.cur.src.toNat s.cur.dst.toNat s.cur.len.toNat := by
  have hpath := execRevcp_path s true true
  change execRevcp true true s = .next t at h
  generalize execRevcp true true s = r at hpath h
  cases hpath with
  | noop hn =>
    obtain rfl := eq_complete_of_finish hr h
    have hempty : s.cur.len.toNat = 0 := hn.resolve_left (by decide)
    have hsep : ¬(s.cur.src.toNat < s.cur.dst.toNat + 0 ∧ s.cur.dst.toNat < s.cur.src.toNat + 0) := by omega
    rw [hempty]
    exact copyReversed_reverses hwf hsep
  | outAbsent | range | aliased | memFault =>
    obtain rfl := eq_complete_of_finish hr h
    cases hok
  | sideEffect => cases h
  | copy _ _ _ _ _ hov =>
    obtain rfl := eq_complete_of_finish ((State.setMem_raced ..).trans hr) h
    exact copyReversed_reverses hwf hov

/-! ### The statements -/

/-- Settles O33: the larger base is the first byte the regions can share. -/
theorem overlapIsSharingAByte : Obligations.OverlapIsSharingAByte := by
  intro src dst n hn
  have hshared : (src < dst + n ∧ dst < src + n) ↔ ∃ a, InRegion src n a ∧ InRegion dst n a := by
    unfold InRegion
    constructor
    · intro h
      exact ⟨max src dst, by omega⟩
    · rintro ⟨a, h⟩
      omega
  refine ⟨overlap_iff .., (overlap_iff ..).trans hshared, (overlap_iff ..).mpr (by omega), ?_, ?_⟩
  all_goals
    rw [← Bool.not_eq_true, overlap_iff]
    omega

/-- Settles O26: each path of REVIP meets its own clause and excludes the conditions of the others. -/
theorem revipCompletesByItsRule : Obligations.RevipCompletesByItsRule := by
  refine ⟨fun _ => decode_eq_ok_iff, fun _ => decode_eq_ok_iff, ?_⟩
  rintro s sp n src rfl rfl hwf hr hord
  change ∃ m err, execRevip sp s = _ ∧ _
  have hpath := execRevip_path s sp
  generalize execRevip sp s = r at hpath
  have hactive : sp = true → 2 ≤ s.cur.len.toNat → ¬(sp = false ∨ s.cur.len.toNat < 2) := fun hsp hn =>
    not_noop hsp hn.not_gt
  cases hpath with
  | noop h =>
    have hidle : sp = true → ¬2 ≤ s.cur.len.toNat := fun hsp hn => hactive hsp hn h
    exact ⟨_, _, finish_unraced hr _ _, fun _ => ⟨rfl, rfl⟩,
      fun hsp hn => absurd hn (hidle hsp), fun hsp hn => absurd hn (hidle hsp), fun hsp hn => absurd hn (hidle hsp)⟩
  | range hsp hn h =>
    exact ⟨_, _, finish_unraced hr _ _, (absurd · (hactive hsp hn)),
      fun _ _ _ => ⟨rfl, rfl⟩,
      fun _ _ hin => absurd hin h.not_ge, fun _ _ hin => absurd hin h.not_ge⟩
  | memFault hsp hn hin h =>
    exact ⟨_, _, finish_unraced hr _ _, (absurd · (hactive hsp hn)),
      fun _ _ hout => absurd hin hout.not_ge,
      fun _ _ _ _ => ⟨rfl, rfl⟩,
      fun _ _ _ hadm => absurd hadm (not_revipAdmitted h)⟩
  | sideEffect hsp hn hin hadm h =>
    obtain ⟨a, ha, hside⟩ := h
    exact absurd (hord hsp hn hin hadm a ha) (by rw [hside]; decide)
  | reverse hsp hn hin hadm h =>
    have hrev := swapPairs_reverses hwf s.cur.src.toNat s.cur.len.toNat
    exact ⟨_, _, finish_unraced ((State.setMem_raced ..).trans hr) _ _, (absurd · (hactive hsp hn)),
      fun _ _ hout => absurd hin hout.not_ge,
      fun _ _ _ hbad => absurd hadm (not_revipAdmitted hbad),
      fun _ _ _ _ => ⟨rfl, hrev.wf, hrev.inside, hrev.outside⟩⟩

/-- Settles O28: each path of REVCP meets its own clause and excludes the conditions of the others. -/
theorem revcpCompletesByItsRule : Obligations.RevcpCompletesByItsRule := by
  refine ⟨fun _ _ _ => decode_eq_ok_iff, ?_⟩
  rintro s sp dp n src dst size rfl rfl rfl rfl hwf hr hord
  change ∃ m err, execRevcp sp dp s = _ ∧ _
  have hpath := execRevcp_path s sp dp
  generalize execRevcp sp dp s = r at hpath
  have hactive : sp = true → 1 ≤ s.cur.len.toNat → ¬(sp = false ∨ s.cur.len.toNat = 0) := fun hsp hn =>
    not_noop hsp (Nat.ne_of_gt hn)
  have hpresent : dp = true → dp ≠ false := by rintro rfl; decide
  cases hpath with
  | noop h =>
    have hidle : sp = true → ¬1 ≤ s.cur.len.toNat := fun hsp hn => hactive hsp hn h
    exact ⟨_, _, finish_unraced hr _ _, fun _ => ⟨rfl, rfl⟩,
      fun hsp hn => absurd hn (hidle hsp), fun hsp hn => absurd hn (hidle hsp), fun hsp hn => absurd hn (hidle hsp),
      fun hsp hn => absurd hn (hidle hsp), fun hsp hn => absurd hn (hidle hsp)⟩
  | outAbsent hsp hn h =>
    have habsent : dp ≠ true := fun hdp => hpresent hdp h
    exact ⟨_, _, finish_unraced hr _ _, (absurd · (hactive hsp hn)),
      fun _ _ _ => ⟨rfl, rfl⟩,
      fun _ _ hdp => absurd hdp habsent, fun _ _ hdp => absurd hdp habsent,
      fun _ _ hdp => absurd hdp habsent, fun _ _ hdp => absurd hdp habsent⟩
  | range hsp hn hdp h =>
    have hout : s.cur.src.toNat + s.cur.len.toNat ≤ memSize s.platform →
        ¬s.cur.dst.toNat + s.cur.len.toNat ≤ memSize s.platform := by omega
    exact ⟨_, _, finish_unraced hr _ _, (absurd · (hactive hsp hn)),
      fun _ _ hdp' => absurd hdp' (hpresent hdp),
      fun _ _ _ _ => ⟨rfl, rfl⟩,
      fun _ _ _ hs hd => absurd hd (hout hs), fun _ _ _ hs hd => absurd hd (hout hs),
      fun _ _ _ hs hd => absurd hd (hout hs)⟩
  | aliased hsp hn hdp hs hd h =>
    exact ⟨_, _, finish_unraced hr _ _, (absurd · (hactive hsp hn)),
      fun _ _ hdp' => absurd hdp' (hpresent hdp),
      fun _ _ _ hout => (hout.elim hs.not_gt hd.not_gt).elim,
      fun _ _ _ _ _ _ => ⟨rfl, rfl⟩,
      fun _ _ _ _ _ hov => absurd h hov, fun _ _ _ _ _ hov => absurd h hov⟩
  | memFault hsp hn hdp hs hd hov h =>
    exact ⟨_, _, finish_unraced hr _ _, (absurd · (hactive hsp hn)),
      fun _ _ hdp' => absurd hdp' (hpresent hdp),
      fun _ _ _ hout => (hout.elim hs.not_gt hd.not_gt).elim,
      fun _ _ _ _ _ hov' => absurd hov' hov,
      fun _ _ _ _ _ _ _ => ⟨rfl, rfl⟩,
      fun _ _ _ _ _ _ hrd hwr => absurd ⟨hrd, hwr⟩ (not_revcpAdmitted h)⟩
  | sideEffect hsp hn hdp hs hd hov hrd hwr h =>
    obtain ⟨a, ha, hside⟩ := h
    exact absurd (hord hsp hdp hn hs hd hov hrd hwr a ha) (by rw [hside]; decide)
  | copy hsp hn hdp hs hd hov hrd hwr h =>
    have hrev := copyReversed_reverses hwf hov
    exact ⟨_, _, finish_unraced ((State.setMem_raced ..).trans hr) _ _, (absurd · (hactive hsp hn)),
      fun _ _ hdp' => absurd hdp' (hpresent hdp),
      fun _ _ _ hout => (hout.elim hs.not_gt hd.not_gt).elim,
      fun _ _ _ _ _ hov' => absurd hov' hov,
      fun _ _ _ _ _ _ hbad => absurd ⟨hrd, hwr⟩ (not_revcpAdmitted hbad),
      fun _ _ _ _ _ _ _ _ => ⟨rfl, hrev.wf, hrev.inside, hrev.outside⟩⟩

/-- Settles O34: an absent buffer leaves memory both times; of a present one, the second reversal gives back what the
first one reversed. -/
theorem revipTwiceRestoresMemory : Obligations.RevipTwiceRestoresMemory := by
  intro s t u w sp hs hu hrs hru hst htok hkeep hsrc hlen huw hwok
  cases sp with
  | false =>
    rw [revip_absent_mem hru huw]
    have hmem := revip_absent_mem hrs hst
    rw [hmem] at hkeep ⊢
    exact ⟨hkeep, id⟩
  | true =>
    have hfirst := revip_ok_reverses hs hrs hst htok
    have hsecond := revip_ok_reverses hu hru huw hwok
    rw [hsrc, hlen] at hsecond
    exact ⟨hfirst.read_twice hsecond hkeep, fun hmem => hfirst.eq_of_twice hs (hmem ▸ hsecond)⟩

/-- Settles O35: each buffer command leaves the region's reverse, and DOUT is the byte reverse of DIN. -/
theorem bufferReversalAgreesWithTheNetwork : Obligations.BufferReversalAgreesWithTheNetwork := by
  intro lsbFirst N i g s t q r hi hg hwf hr hlen hst hok hqr hstored
  have hdout := pn_dout_isByteReverse hi hqr
  subst hlen
  rcases hg with rfl | rfl
  · exact (revip_ok_reverses hwf hr hst hok).storesBytes hstored hdout
  · exact (revcp_ok_reverses hwf hr hst hok).storesBytes hstored hdout

end Sys2Proof.Machine
end

section
/-! SUPPORT. The command that a legal word's bits name, what a command in flight reports, what every Complete step
changes, and the statements on completion settled from them (60_exceptions R140 to R145). -/

namespace Sys2Proof.Machine

/-! ### The command in flight -/

/-- The operation and the present bits of a command stand in its word (30_encoding R70). -/
theorem bits_of_decode {v : Word} {i : Instr} (h : decode v = .ok i) :
    v.extractLsb' 0 4 = i.fields.op ∧ v.getLsbD 8 = i.fields.sp ∧ v.getLsbD 9 = i.fields.dp := by
  have hfields : fieldsOf v = i.fields := instrOfFields_eq_ok_iff.mp h
  rw [← hfields]
  exact ⟨rfl, rfl, rfl⟩

/-- A legal word with OP = 5 is REVIP's, with SP its present bit (30_encoding R71, R74). -/
theorem decode_of_op_revip {v : Word} (hlegal : LegalWord v) (hop : v.extractLsb' 0 4 = 5) :
    decode v = .ok (.revip (v.getLsbD 8)) := by
  obtain ⟨i, hi⟩ := (exists_decode_ok_iff_legalWord v).mpr hlegal
  obtain ⟨hopcode, hsp, -⟩ := bits_of_decode hi
  rw [hop] at hopcode
  cases i with
  | swap32 | swap64 | frev32 | frev64 | revcp => exact absurd hopcode (by simp [Instr.fields])
  | revip sp => rw [hi, hsp, Instr.fields]

/-- A legal word with OP = 6 is REVCP's, with SP and DP its present bits (30_encoding R71, R74). -/
theorem decode_of_op_revcp {v : Word} (hlegal : LegalWord v) (hop : v.extractLsb' 0 4 = 6) :
    decode v = .ok (.revcp (v.getLsbD 8) (v.getLsbD 9)) := by
  obtain ⟨i, hi⟩ := (exists_decode_ok_iff_legalWord v).mpr hlegal
  obtain ⟨hopcode, hsp, hdp⟩ := bits_of_decode hi
  rw [hop] at hopcode
  cases i with
  | swap32 | swap64 | frev32 | frev64 | revip => exact absurd hopcode (by simp [Instr.fields])
  | revcp sp dp => rw [hi, hsp, hdp, Instr.fields]

/-- The sequencer runs the body of a legal command in flight (10_state R43). -/
theorem sequencerTurn_decoded {s : State} {i : Instr} (hb : s.status.busy = true) (hd : decode s.cur.cmd = .ok i) :
    sequencerTurn s = exec i s := by
  rw [sequencerTurn, if_pos hb, hd]

/-! ### The outcome a command reports -/

/-- The command completes, and STATUS.ERR is `err` (60_exceptions R140). -/
def Reports (r : Result) (err : ErrCode) : Prop := ∃ t, r = .next t ∧ t.status.err = err

theorem finish_reports (s : State) (w : Region) (err : ErrCode) : Reports (finish s w err) err := ⟨_, rfl, rfl⟩

/-- REVIP's outcomes in the order of 60_exceptions R145: each path has reached its own condition past the ones before. -/
theorem execRevip_reports (s : State) (sp : Bool) :
    (sp = false ∨ s.cur.len.toNat < 2 → Reports (execRevip sp s) .ok) ∧
    (sp = true → 2 ≤ s.cur.len.toNat →
      (memSize s.platform < s.cur.src.toNat + s.cur.len.toNat → Reports (execRevip sp s) .range) ∧
      (s.cur.src.toNat + s.cur.len.toNat ≤ memSize s.platform →
        (∃ a, InPairSet s.cur.src.toNat s.cur.len.toNat a ∧
          (admits s.platform .read a = false ∨ admits s.platform .write a = false)) →
        Reports (execRevip sp s) .memFault)) := by
  have hpath := execRevip_path s sp
  generalize execRevip sp s = r at hpath ⊢
  have hactive : sp = true → 2 ≤ s.cur.len.toNat → ¬(sp = false ∨ s.cur.len.toNat < 2) := fun hsp hn =>
    not_noop hsp hn.not_gt
  cases hpath with
  | noop h => exact ⟨fun _ => finish_reports .., fun hsp hn => absurd h (hactive hsp hn)⟩
  | range hsp hn h =>
    exact ⟨(absurd · (hactive hsp hn)), fun _ _ => ⟨fun _ => finish_reports .., fun hin => absurd hin h.not_ge⟩⟩
  | memFault hsp hn hin h =>
    exact ⟨(absurd · (hactive hsp hn)), fun _ _ => ⟨fun hout => absurd hin hout.not_ge, fun _ _ => finish_reports ..⟩⟩
  | sideEffect hsp hn hin hadm | reverse hsp hn hin hadm =>
    exact ⟨(absurd · (hactive hsp hn)), fun _ _ =>
      ⟨fun hout => absurd hin hout.not_ge, fun _ hbad => absurd hadm (not_revipAdmitted hbad)⟩⟩

/-- REVCP's outcomes in the order of 60_exceptions R145: each path has reached its own condition past the ones before. -/
theorem execRevcp_reports (s : State) (sp dp : Bool) :
    (sp = false ∨ s.cur.len.toNat = 0 → Reports (execRevcp sp dp s) .ok) ∧
    (sp = true → 1 ≤ s.cur.len.toNat →
      (dp = false → Reports (execRevcp sp dp s) .outAbsent) ∧
      (dp = true →
        (memSize s.platform < s.cur.src.toNat + s.cur.len.toNat ∨
          memSize s.platform < s.cur.dst.toNat + s.cur.len.toNat → Reports (execRevcp sp dp s) .range) ∧
        (s.cur.src.toNat + s.cur.len.toNat ≤ memSize s.platform →
          s.cur.dst.toNat + s.cur.len.toNat ≤ memSize s.platform →
          (s.cur.src.toNat < s.cur.dst.toNat + s.cur.len.toNat ∧
            s.cur.dst.toNat < s.cur.src.toNat + s.cur.len.toNat → Reports (execRevcp sp dp s) .aliased) ∧
          (¬(s.cur.src.toNat < s.cur.dst.toNat + s.cur.len.toNat ∧
            s.cur.dst.toNat < s.cur.src.toNat + s.cur.len.toNat) →
            (∃ a, (InRegion s.cur.src.toNat s.cur.len.toNat a ∧ admits s.platform .read a = false) ∨
              (InRegion s.cur.dst.toNat s.cur.len.toNat a ∧ admits s.platform .write a = false)) →
            Reports (execRevcp sp dp s) .memFault)))) := by
  have hpath := execRevcp_path s sp dp
  generalize execRevcp sp dp s = r at hpath ⊢
  have hactive : sp = true → 1 ≤ s.cur.len.toNat → ¬(sp = false ∨ s.cur.len.toNat = 0) := fun hsp hn =>
    not_noop hsp (Nat.ne_of_gt hn)
  have hpresent : dp = true → dp ≠ false := by rintro rfl; decide
  cases hpath with
  | noop h => exact ⟨fun _ => finish_reports .., fun hsp hn => absurd h (hactive hsp hn)⟩
  | outAbsent hsp hn h =>
    exact ⟨(absurd · (hactive hsp hn)), fun _ _ => ⟨fun _ => finish_reports .., fun hdp => absurd h (hpresent hdp)⟩⟩
  | range hsp hn hdp h =>
    exact ⟨(absurd · (hactive hsp hn)), fun _ _ => ⟨(absurd · (hpresent hdp)), fun _ =>
      ⟨fun _ => finish_reports .., fun hs hd => (h.elim hs.not_gt hd.not_gt).elim⟩⟩⟩
  | aliased hsp hn hdp hs hd h =>
    exact ⟨(absurd · (hactive hsp hn)), fun _ _ => ⟨(absurd · (hpresent hdp)), fun _ =>
      ⟨fun hout => (hout.elim hs.not_gt hd.not_gt).elim, fun _ _ =>
        ⟨fun _ => finish_reports .., fun hov => absurd h hov⟩⟩⟩⟩
  | memFault hsp hn hdp hs hd hov h =>
    exact ⟨(absurd · (hactive hsp hn)), fun _ _ => ⟨(absurd · (hpresent hdp)), fun _ =>
      ⟨fun hout => (hout.elim hs.not_gt hd.not_gt).elim, fun _ _ =>
        ⟨(absurd · hov), fun _ _ => finish_reports ..⟩⟩⟩⟩
  | sideEffect hsp hn hdp hs hd hov hrd hwr | copy hsp hn hdp hs hd hov hrd hwr =>
    exact ⟨(absurd · (hactive hsp hn)), fun _ _ => ⟨(absurd · (hpresent hdp)), fun _ =>
      ⟨fun hout => (hout.elim hs.not_gt hd.not_gt).elim, fun _ _ =>
        ⟨(absurd · hov), fun _ hbad => absurd ⟨hrd, hwr⟩ (not_revcpAdmitted hbad)⟩⟩⟩⟩

/-! ### What a Complete step changes -/

/-- The command that was in flight in `s` has ended in `t`: BUSY, DONE and OVR as `complete` leaves them, and besides
STATUS at most DOUT, memory and the race's bookkeeping changed (60_exceptions R141). -/
structure CommandEnded (s t : State) : Prop where
  busy : t.status.busy = false
  done : t.status.done = true
  ovr : t.status.ovr = s.status.ovr
  frame : t = { s with status := t.status, dout := t.dout, mem := t.mem, draws := t.draws, raced := t.raced }

theorem complete_ended (s : State) (err : ErrCode) : CommandEnded s (s.complete err) := ⟨rfl, rfl, rfl, rfl⟩

/-- The end of a PN command (40_permutation_network R100). -/
theorem finishPn_ended {s t : State} {r : Word} (h : finishPn s r = .next t) : CommandEnded s t := by
  rw [finishPn_eq] at h
  cases h
  exact ⟨rfl, rfl, rfl, rfl⟩

/-- The end of a GBRE command that has left the memory `m` (41_buffer_reversal R120). -/
theorem finish_setMem_ended {s t : State} {m : Memory} {w : Region} {err : ErrCode}
    (h : finish (s.setMem m) w err = .next t) : CommandEnded s t := by
  rw [finish_eq] at h
  cases h
  exact ⟨rfl, rfl, rfl, rfl⟩

theorem finish_ended {s t : State} {w : Region} {err : ErrCode} (h : finish s w err = .next t) : CommandEnded s t :=
  finish_setMem_ended (m := s.mem) h

theorem execRevip_ended {s t : State} {sp : Bool} (h : execRevip sp s = .next t) : CommandEnded s t := by
  have hpath := execRevip_path s sp
  generalize execRevip sp s = r at hpath h
  cases hpath with
  | noop | range | memFault => exact finish_ended h
  | sideEffect => cases h
  | reverse => exact finish_setMem_ended h

theorem execRevcp_ended {s t : State} {sp dp : Bool} (h : execRevcp sp dp s = .next t) : CommandEnded s t := by
  have hpath := execRevcp_path s sp dp
  generalize execRevcp sp dp s = r at hpath h
  cases hpath with
  | noop | outAbsent | range | aliased | memFault => exact finish_ended h
  | sideEffect => cases h
  | copy => exact finish_setMem_ended h

/-- A command that completes has ended, whatever its outcome. -/
theorem exec_ended {s t : State} {i : Instr} (h : exec i s = .next t) : CommandEnded s t := by
  cases i with
  | swap32 | swap64 | frev32 | frev64 => exact finishPn_ended h
  | revip => exact execRevip_ended h
  | revcp => exact execRevcp_ended h

/-- A Complete step ends the command in flight, of a legal word or not. -/
theorem sequencerTurn_ended {s t : State} (hb : s.status.busy = true) (h : sequencerTurn s = .next t) :
    CommandEnded s t := by
  by_cases hlegal : LegalWord s.cur.cmd
  · obtain ⟨i, hi⟩ := (exists_decode_ok_iff_legalWord _).mpr hlegal
    exact exec_ended ((sequencerTurn_decoded hb hi).symm.trans h)
  · rw [sequencerTurn_illegal hb hlegal] at h
    cases h
    exact complete_ended s _

/-! ### The statements -/

/-- Settles O36: the bits of the word name the command, and each of its paths reports the first outcome that applies. -/
theorem firstApplicableOutcomeIsReported : Obligations.FirstApplicableOutcomeIsReported := by
  rintro s _ _ _ _ _ hb rfl rfl rfl rfl rfl
  refine ⟨fun hillegal => ⟨_, sequencerTurn_illegal hb hillegal, rfl⟩, fun hlegal hop => ?_, fun hlegal hop => ?_⟩
  · rw [sequencerTurn_decoded hb (decode_of_op_revip hlegal hop)]
    exact execRevip_reports s _
  · rw [sequencerTurn_decoded hb (decode_of_op_revcp hlegal hop)]
    exact execRevcp_reports s _ _

/-- Settles O37: `complete` as it is defined, and every Complete step ends the command in flight. -/
theorem completeEndsTheCommandInFlight : Obligations.CompleteEndsTheCommandInFlight := by
  refine ⟨fun _ _ => rfl, fun s t hb h => ?_⟩
  obtain ⟨hbusy, hdone, hovr, hframe⟩ := sequencerTurn_ended hb h
  exact ⟨hbusy, hdone, hovr, hframe⟩

end Sys2Proof.Machine
end

section
/-! SUPPORT. The statements on decoding and on the texts of commands, settled from the decoder as the encoder's inverse
(30_encoding R75 to R79). -/

namespace Sys2Proof.Machine

/-! ### The texts of commands -/

/-- The assembler reads a mnemonic through its folded case only (30_encoding R79). -/
theorem assemble_congr {m m' : String} (h : foldCase m = foldCase m') (operands : String) :
    assemble m operands = assemble m' operands := by
  simp only [assemble, h]

/-- A command's own text assembles to its CMD value: no command before it in the list has the same text. -/
theorem assemble_commandText (i : Instr) : assemble (commandText i).1 (commandText i).2 = some (encode i) := by
  cases i with
  | swap32 | swap64 | frev32 | frev64 => decide
  | revip sp => cases sp <;> decide
  | revcp sp dp => cases sp <;> cases dp <;> decide

/-- A command's text, its mnemonic in any case, assembles to its CMD value (30_encoding R79). -/
theorem assemble_of_foldCase {i : Instr} {m : String} (h : foldCase m = foldCase (commandText i).1) :
    assemble m (commandText i).2 = some (encode i) :=
  (assemble_congr h _).trans (assemble_commandText i)

/-! ### The statements -/

/-- Settles O16: a word decodes to the command whose fields it has, and a command's encoding has its fields. -/
theorem decodeAndEncodeAgree : Obligations.DecodeAndEncodeAgree := fun _ _ => decode_eq_ok_iff

/-- Settles O17: the words are closed terms, and the decoder runs on them. -/
theorem tableWordsDecodeAsWritten : Obligations.TableWordsDecodeAsWritten := by
  unfold Obligations.TableWordsDecodeAsWritten
  decide

/-- Settles O18: only the folded mnemonic counts, and in small letters it is each command's own. -/
theorem commandTextAssemblesToItsWord : Obligations.CommandTextAssemblesToItsWord :=
  ⟨fun _ _ h => assemble_of_foldCase h,
    assemble_of_foldCase (i := .swap32) (by decide), assemble_of_foldCase (i := .swap64) (by decide),
    assemble_of_foldCase (i := .frev32) (by decide), assemble_of_foldCase (i := .frev64) (by decide),
    assemble_of_foldCase (i := .revip true) (by decide), assemble_of_foldCase (i := .revip false) (by decide),
    assemble_of_foldCase (i := .revcp true true) (by decide), assemble_of_foldCase (i := .revcp true false) (by decide),
    assemble_of_foldCase (i := .revcp false true) (by decide),
    assemble_of_foldCase (i := .revcp false false) (by decide)⟩

end Sys2Proof.Machine
end

section
/-! SUPPORT. What a buffer command may change, raced or not, on what it depends, and the statements on its frame, its
refusals, its errors and its races settled from them (20_memory R57, R58, R61; 41_buffer_reversal R120 to R138;
60_exceptions R140, R144). -/

namespace Sys2Proof.Machine

/-! ### Memories that agree outside a region -/

/-- `m'` is canonical and differs from `m` in existing bytes of the region only. -/
structure SameOutside (p : Config.Platform) (r : Region) (m m' : Memory) : Prop where
  wf : m'.wf = true
  outside : ∀ a, ¬(a < memSize p ∧ InRegion r.base r.len a) → m'.read a = m.read a

/-- `m'` is canonical, holds the free bytes of draw `d` in every existing byte of the region, and elsewhere what `m`
holds (20_memory R58, 70_reset_and_hazards R161). -/
structure FreesRegion (p : Config.Platform) (r : Region) (d : Nat) (m m' : Memory) : Prop where
  same : SameOutside p r m m'
  inside : ∀ a, a < memSize p → InRegion r.base r.len a → m'.read a = Config.anyByte d a

theorem SameOutside.refl {m : Memory} (h : m.wf = true) (p : Config.Platform) (r : Region) : SameOutside p r m m where
  wf := h
  outside _ _ := rfl

theorem SameOutside.trans {p : Config.Platform} {r : Region} {m m' m'' : Memory} (h : SameOutside p r m m')
    (h' : SameOutside p r m' m'') : SameOutside p r m m'' where
  wf := h'.wf
  outside a ha := (h'.outside a ha).trans (h.outside a ha)

/-- Bytes outside a region are among those outside its existing part. -/
theorem SameOutside.read {p : Config.Platform} {r : Region} {m m' : Memory} (h : SameOutside p r m m') {a : Nat}
    (ha : ¬InRegion r.base r.len a) : m'.read a = m.read a :=
  h.outside a fun hreg => ha hreg.2

/-- A region that holds another in reverse is all that changed, where it exists. -/
theorem ReversesInto.sameOutside {p : Config.Platform} {m m' : Memory} {src dst n : Nat}
    (h : ReversesInto m m' src dst n) (hin : dst + n ≤ memSize p) : SameOutside p ⟨dst, n⟩ m m' where
  wf := h.wf
  outside a ha := h.outside a fun hreg => ha ⟨hreg.2.trans_le hin, hreg⟩

/-- One draw of free bytes, clipped to the address space. -/
theorem scrambleRegion_frees {s : State} (h : s.mem.wf = true) (r : Region) :
    FreesRegion s.platform r s.draws s.mem (s.scrambleRegion r).mem where
  same :=
    { wf := scramble_wf h ..
      outside := fun a ha => by
        have hclip : ¬InRegion (r.clip s.platform).base (r.clip s.platform).len a := by
          rw [inRegion_clip]
          exact fun hreg => ha hreg.symm
        rw [State.scrambleRegion_mem, scramble_read h, if_neg hclip] }
  inside a hsize hreg := by
    rw [State.scrambleRegion_mem, scramble_read h, if_pos ((inRegion_clip ..).mpr ⟨hreg, hsize⟩)]

theorem settleRace_sameOutside {s : State} (h : s.mem.wf = true) (r : Region) :
    SameOutside s.platform r s.mem (s.settleRace r).mem := by
  rw [State.settleRace]
  split
  · exact (scrambleRegion_frees h r).same
  · exact .refl h ..

/-! ### The end of a buffer command -/

/-- A GBRE command with written region `r` has ended: it changed STATUS by `complete`, memory within its region, and the
race's bookkeeping, which is over (41_buffer_reversal R120). -/
structure BufferEnded (r : Region) (s t : State) : Prop where
  frame : t = { s with mem := t.mem, status := completedStatus s t.status.err, draws := t.draws, raced := t.raced }
  raceOver : t.raced = false
  mem : SameOutside s.platform r s.mem t.mem

/-- What `finish` leaves alone. -/
theorem finish_setMem_frame {s t : State} {m : Memory} {r : Region} {err : ErrCode}
    (h : finish (s.setMem m) r err = .next t) :
    t = { s with mem := t.mem, status := completedStatus s t.status.err, draws := t.draws, raced := t.raced } := by
  rw [finish_eq] at h
  cases h
  rfl

theorem finish_setMem_cur {s t : State} {m : Memory} {r : Region} {err : ErrCode}
    (h : finish (s.setMem m) r err = .next t) : t.cur = s.cur := by
  rw [finish_setMem_frame h]

theorem finish_setMem_dout {s t : State} {m : Memory} {r : Region} {err : ErrCode}
    (h : finish (s.setMem m) r err = .next t) : t.dout = s.dout := by
  rw [finish_setMem_frame h]

/-- What `finish` leaves after a loop that changed bytes of the written region only. -/
theorem finish_setMem_bufferEnded {s t : State} {m : Memory} {r : Region} {err : ErrCode}
    (hm : SameOutside s.platform r s.mem m) (h : finish (s.setMem m) r err = .next t) : BufferEnded r s t := by
  have hframe := finish_setMem_frame h
  rw [finish_eq] at h
  cases h
  exact ⟨hframe, rfl, hm.trans (settleRace_sameOutside (s := s.setMem m) hm.wf r)⟩

theorem finish_bufferEnded {s t : State} {r : Region} {err : ErrCode} (hwf : s.mem.wf = true)
    (h : finish s r err = .next t) : BufferEnded r s t :=
  finish_setMem_bufferEnded (m := s.mem) (.refl hwf ..) h

/-- A raced command's end: the free bytes of one draw in its written region, whatever the loop left there. -/
theorem finish_raced {s : State} {m : Memory} {r : Region} (err : ErrCode) (hr : s.raced = true)
    (hm : SameOutside s.platform r s.mem m) : ∃ m', FreesRegion s.platform r s.draws s.mem m' ∧
      finish (s.setMem m) r err =
        .next { s with mem := m', draws := s.draws + 1, raced := false, status := completedStatus s err } := by
  have hfree : FreesRegion s.platform r s.draws m ((s.setMem m).scrambleRegion r).mem :=
    scrambleRegion_frees (s := s.setMem m) hm.wf r
  refine ⟨_, ⟨hm.trans hfree.same, hfree.inside⟩, ?_⟩
  rw [finish, State.settleRace, if_pos (show (s.setMem m).raced = true from hr)]
  rfl

theorem execRevip_bufferEnded {s t : State} {sp : Bool} (hwf : s.mem.wf = true) (h : execRevip sp s = .next t) :
    BufferEnded (writtenRegion (.revip sp) s.cur) s t := by
  have hpath := execRevip_path s sp
  generalize execRevip sp s = r at hpath h
  cases hpath with
  | noop | range | memFault => exact finish_bufferEnded hwf h
  | sideEffect => cases h
  | reverse _ _ hin => exact finish_setMem_bufferEnded ((swapPairs_reverses hwf ..).sameOutside hin) h

theorem execRevcp_bufferEnded {s t : State} {sp dp : Bool} (hwf : s.mem.wf = true)
    (h : execRevcp sp dp s = .next t) : BufferEnded (writtenRegion (.revcp sp dp) s.cur) s t := by
  have hpath := execRevcp_path s sp dp
  generalize execRevcp sp dp s = r at hpath h
  cases hpath with
  | noop | outAbsent | range | aliased | memFault => exact finish_bufferEnded hwf h
  | sideEffect => cases h
  | copy _ _ _ _ hd hov => exact finish_setMem_bufferEnded ((copyReversed_reverses hwf hov).sameOutside hd) h

/-! ### What a buffer command depends on -/

/-- REVIP's outcome is fixed by the platform, `cur.src`, `cur.len` and memory: on two states that agree there it leaves
the same loop result and code to `finish`. -/
theorem execRevip_congr {s t : State} {sp : Bool} (h : execRevip sp s = .next t) (s' : State)
    (hp : s'.platform = s.platform) (hsrc : s'.cur.src = s.cur.src) (hlen : s'.cur.len = s.cur.len)
    (hmem : s'.mem = s.mem) :
    ∃ m err, finish (s.setMem m) (writtenRegion (.revip sp) s.cur) err = .next t ∧
      execRevip sp s' = finish (s'.setMem m) (writtenRegion (.revip sp) s.cur) err := by
  have hsame : s'.setMem s.mem = s' := hmem ▸ rfl
  simp only [execRevip, byteCount, srcAddr, writtenRegion, hp, hsrc, hlen, hmem] at h ⊢
  split_ifs at h ⊢
  case pos | pos | pos | pos => exact ⟨s.mem, _, h, by rw [hsame]⟩
  case neg => exact ⟨_, _, h, rfl⟩

/-- REVCP's outcome is fixed by the platform, `cur.src`, `cur.dst`, `cur.len` and memory, as REVIP's is. -/
theorem execRevcp_congr {s t : State} {sp dp : Bool} (h : execRevcp sp dp s = .next t) (s' : State)
    (hp : s'.platform = s.platform) (hsrc : s'.cur.src = s.cur.src) (hdst : s'.cur.dst = s.cur.dst)
    (hlen : s'.cur.len = s.cur.len) (hmem : s'.mem = s.mem) :
    ∃ m err, finish (s.setMem m) (writtenRegion (.revcp sp dp) s.cur) err = .next t ∧
      execRevcp sp dp s' = finish (s'.setMem m) (writtenRegion (.revcp sp dp) s.cur) err := by
  have hsame : s'.setMem s.mem = s' := hmem ▸ rfl
  simp only [execRevcp, byteCount, srcAddr, dstAddr, writtenRegion, hp, hsrc, hdst, hlen, hmem] at h ⊢
  split_ifs at h ⊢
  case pos | pos | pos | pos | pos | pos => exact ⟨s.mem, _, h, by rw [hsame]⟩
  case neg => exact ⟨_, _, h, rfl⟩

/-- The state with other values of DIN, DOUT and `cur`. -/
def State.withData (s : State) (x y : Word) (c : Latched) : State := { s with din := x, dout := y, cur := c }

theorem finish_withData {s t : State} {m : Memory} {r : Region} {err : ErrCode}
    (h : finish (s.setMem m) r err = .next t) (x y : Word) (c : Latched) :
    finish ((s.withData x y c).setMem m) r err = .next (t.withData x y c) := by
  rw [finish_eq, settleRace_mem, settleRace_draws] at h ⊢
  cases h
  rfl

/-- The command without a race tells what it does with one: the same code, and the free bytes of one draw in its written
region (20_memory R58, R61; log entry 7). -/
theorem execRevip_raced {s : State} {sp : Bool} {m : Memory} {err : ErrCode} (hwf : s.mem.wf = true)
    (hr : s.raced = true)
    (h : execRevip sp { s with raced := false } =
      .next { s with raced := false, mem := m, status := completedStatus s err }) :
    ∃ m', FreesRegion s.platform ⟨s.cur.src.toNat, s.cur.len.toNat⟩ s.draws s.mem m' ∧
      execRevip sp s =
        .next { s with mem := m', draws := s.draws + 1, raced := false, status := completedStatus s err } := by
  have hmem := (execRevip_bufferEnded (s := { s with raced := false }) hwf h).mem
  obtain ⟨_, _, hfin, hexec⟩ := execRevip_congr h s rfl rfl rfl rfl
  rw [finish_unraced rfl] at hfin
  cases hfin
  rw [hexec]
  exact finish_raced _ hr hmem

theorem execRevcp_raced {s : State} {sp dp : Bool} {m : Memory} {err : ErrCode} (hwf : s.mem.wf = true)
    (hr : s.raced = true)
    (h : execRevcp sp dp { s with raced := false } =
      .next { s with raced := false, mem := m, status := completedStatus s err }) :
    ∃ m', FreesRegion s.platform ⟨s.cur.dst.toNat, s.cur.len.toNat⟩ s.draws s.mem m' ∧
      execRevcp sp dp s =
        .next { s with mem := m', draws := s.draws + 1, raced := false, status := completedStatus s err } := by
  have hmem := (execRevcp_bufferEnded (s := { s with raced := false }) hwf h).mem
  obtain ⟨_, _, hfin, hexec⟩ := execRevcp_congr h s rfl rfl rfl rfl rfl
  rw [finish_unraced rfl] at hfin
  cases hfin
  rw [hexec]
  exact finish_raced _ hr hmem

/-! ### Errors without a race -/

/-- REVIP's error paths end by `complete` alone (60_exceptions R144). -/
theorem execRevip_error {s t : State} {sp : Bool} (hr : s.raced = false) (h : execRevip sp s = .next t)
    (herr : t.status.err ≠ .ok) : t = s.complete t.status.err := by
  have hpath := execRevip_path s sp
  generalize execRevip sp s = r at hpath h
  cases hpath with
  | noop | reverse =>
    cases h
    exact absurd rfl herr
  | range | memFault =>
    obtain rfl := eq_complete_of_finish hr h
    rfl
  | sideEffect => cases h

/-- REVCP's error paths end by `complete` alone (60_exceptions R144). -/
theorem execRevcp_error {s t : State} {sp dp : Bool} (hr : s.raced = false) (h : execRevcp sp dp s = .next t)
    (herr : t.status.err ≠ .ok) : t = s.complete t.status.err := by
  have hpath := execRevcp_path s sp dp
  generalize execRevcp sp dp s = r at hpath h
  cases hpath with
  | noop | copy =>
    cases h
    exact absurd rfl herr
  | outAbsent | range | aliased | memFault =>
    obtain rfl := eq_complete_of_finish hr h
    rfl
  | sideEffect => cases h

/-- The PN commands report OK (40_permutation_network R100). -/
theorem finishPn_ok {s t : State} {v : Word} (h : finishPn s v = .next t) : t.status.err = .ok := by
  cases h
  rfl

/-! ### The statements -/

/-- Settles O27: every path but the refusal's contradicts a hypothesis. -/
theorem revipRefusesSideEffectLocations : Obligations.RevipRefusesSideEffectLocations := by
  rintro s n src rfl rfl hn hin hadm ⟨a, ha, hside⟩
  change execRevip true s = _
  have hpath := execRevip_path s true
  generalize execRevip true s = r at hpath
  cases hpath with
  | noop h => exact absurd h (not_noop rfl hn.not_gt)
  | range _ _ h => exact absurd hin h.not_ge
  | memFault _ _ _ h => exact absurd hadm (not_revipAdmitted h)
  | sideEffect => rfl
  | reverse _ _ _ _ h => exact absurd (h a ha) (by rw [hside]; decide)

/-- Settles O29: every path but the refusal's contradicts a hypothesis. -/
theorem revcpRefusesSideEffectLocations : Obligations.RevcpRefusesSideEffectLocations := by
  rintro s n src dst rfl rfl rfl hn hs hd hov hrd hwr ⟨a, ha, hside⟩
  change execRevcp true true s = _
  have hpath := execRevcp_path s true true
  generalize execRevcp true true s = r at hpath
  cases hpath with
  | noop h => exact absurd h (not_noop rfl (Nat.ne_of_gt hn))
  | outAbsent _ _ h => cases h
  | range _ _ _ h => exact (h.elim hs.not_gt hd.not_gt).elim
  | aliased _ _ _ _ _ h => exact absurd h hov
  | memFault _ _ _ _ _ _ h => exact absurd ⟨hrd, hwr⟩ (not_revcpAdmitted h)
  | sideEffect => rfl
  | copy _ _ _ _ _ _ _ _ h => exact absurd (h a ha) (by rw [hside]; decide)

/-- Settles O30: only the copy writes at all, and the regions it copies between share no byte. -/
theorem revcpNeverWritesItsInput : Obligations.RevcpNeverWritesItsInput := by
  intro s t sp dp hwf hr h a ha
  change execRevcp sp dp s = .next t at h
  have hpath := execRevcp_path s sp dp
  generalize execRevcp sp dp s = r at hpath h
  cases hpath with
  | noop | outAbsent | range | aliased | memFault =>
    obtain rfl := eq_complete_of_finish hr h
    rfl
  | sideEffect => cases h
  | copy _ _ _ _ _ hov =>
    obtain rfl := eq_complete_of_finish ((State.setMem_raced ..).trans hr) h
    have hdst : ¬InRegion s.cur.dst.toNat s.cur.len.toNat a := fun hd =>
      hov ⟨ha.1.trans_lt hd.2, hd.1.trans_lt ha.2⟩
    exact (copyReversed_reverses hwf hov).outside a hdst

/-- Settles O31: the end of a GBRE command, raced or not, with the command's written region. -/
theorem bufferCommandsWriteOnlyTheirRegion : Obligations.BufferCommandsWriteOnlyTheirRegion := by
  intro s t sp dp hwf
  refine ⟨fun h => ?_, fun h => ?_⟩
  · obtain ⟨hframe, -, hmem⟩ := execRevip_bufferEnded hwf h
    exact ⟨hframe, fun _ => hmem.read⟩
  · obtain ⟨hframe, -, hmem⟩ := execRevcp_bufferEnded hwf h
    exact ⟨hframe, fun _ => hmem.read⟩

/-- Settles O32: the outcome depends on none of these registers, and `finish` carries them along. -/
theorem bufferCommandsIgnoreTheDataRegisters : Obligations.BufferCommandsIgnoreTheDataRegisters := by
  intro s t sp dp x y z w
  refine ⟨fun h => ?_, fun h => ?_⟩
  · obtain ⟨m, err, hfin, hexec⟩ :=
      execRevip_congr h (s.withData x y { s.cur with din := z, dst := w }) rfl rfl rfl rfl
    rw [finish_setMem_cur hfin]
    exact hexec.trans (finish_withData hfin ..)
  · obtain ⟨m, err, hfin, hexec⟩ :=
      execRevcp_congr h (s.withData x y { s.cur with din := z }) rfl rfl rfl rfl rfl
    rw [finish_setMem_cur hfin]
    exact hexec.trans (finish_withData hfin ..)

/-- Settles O38: an illegal word and the buffer commands' errors end by `complete` alone; a PN command reports OK. -/
theorem errorCompletionsChangeOnlyStatus : Obligations.ErrorCompletionsChangeOnlyStatus := by
  intro s t hb hr h herr
  by_cases hlegal : LegalWord s.cur.cmd
  · obtain ⟨i, hi⟩ := (exists_decode_ok_iff_legalWord _).mpr hlegal
    rw [sequencerTurn_decoded hb hi] at h
    cases i with
    | swap32 | swap64 | frev32 | frev64 => exact absurd (finishPn_ok h) herr
    | revip => exact execRevip_error hr h herr
    | revcp => exact execRevcp_error hr h herr
  · rw [sequencerTurn_illegal hb hlegal] at h
    cases h
    rfl

/-- Settles O40: the code is that of the same command without a race, and the race frees the written region. -/
theorem racedCommandLeavesFreeBytes : Obligations.RacedCommandLeavesFreeBytes := by
  obtain ⟨-, -, hrevip⟩ := revipCompletesByItsRule
  obtain ⟨-, hrevcp⟩ := revcpCompletesByItsRule
  constructor
  · rintro s sp _ _ _ rfl rfl rfl hwf hr hord
    obtain ⟨m, err, hexec, hnoop, hrange, hfault, hok⟩ :=
      hrevip { s with raced := false } sp _ _ rfl rfl hwf rfl hord
    obtain ⟨m', ⟨hsame, hfree⟩, hraced⟩ := execRevip_raced hwf hr hexec
    exact ⟨m', err, hraced, hsame.wf, hfree, hsame.outside, fun h => (hnoop h).1,
      fun hsp hn h => (hrange hsp hn h).1, fun hsp hn hin h => (hfault hsp hn hin h).1,
      fun hsp hn hin h => (hok hsp hn hin h).1⟩
  · rintro s sp dp _ _ _ _ rfl rfl rfl rfl hwf hr hord
    obtain ⟨m, err, hexec, hnoop, habsent, hrange, halias, hfault, hok⟩ :=
      hrevcp { s with raced := false } sp dp _ _ _ _ rfl rfl rfl rfl hwf rfl hord
    obtain ⟨m', ⟨hsame, hfree⟩, hraced⟩ := execRevcp_raced hwf hr hexec
    exact ⟨m', err, hraced, hsame.wf, hfree, hsame.outside, fun h => (hnoop h).1,
      fun hsp hn h => (habsent hsp hn h).1, fun hsp hn hdp h => (hrange hsp hn hdp h).1,
      fun hsp hn hdp hs hd h => (halias hsp hn hdp hs hd h).1,
      fun hsp hn hdp hs hd hov h => (hfault hsp hn hdp hs hd hov h).1,
      fun hsp hn hdp hs hd hov hrd hwr => (hok hsp hn hdp hs hd hov hrd hwr).1⟩

end Sys2Proof.Machine
end

section
/-! SUPPORT. STATUS bit by bit, which window accesses are taken, the Accept as the effect of a CMD write, and the
statements on the registers, the window and Accept settled from them (10_state R21 to R42, 20_memory R58, R59,
60_exceptions R146). -/

namespace Sys2Proof.Machine

/-! ### STATUS -/

theorem bitAt_getLsbD {k : Nat} (hk : k < 64) (b : Bool) (j : Nat) :
    (bitAt k b).getLsbD j = (decide (k = j) && b) := by
  cases b with
  | false => simp [bitAt]
  | true =>
    rw [bitAt, if_pos rfl, BitVec.getLsbD_ofNat, Nat.testBit_two_pow, Bool.and_comm, Bool.and_true]
    by_cases hj : k = j
    · simp [← hj, hk]
    · simp [hj]

theorem errCode_lt (e : ErrCode) : errCode e < 2 ^ 4 := by
  cases e <;> decide

/-- STATUS bit by bit (10_state R28). -/
theorem statusWord_getLsbD (t : Status) {j : Nat} (hj : j < 64) : (statusWord t).getLsbD j =
    (decide (0 = j) && t.busy || decide (1 = j) && t.done || decide (2 = j) && t.ovr ||
      decide (4 ≤ j) && (errCode t.err).testBit (j - 4)) := by
  rw [statusWord, BitVec.getLsbD_or, BitVec.getLsbD_or, BitVec.getLsbD_or, bitAt_getLsbD (by decide),
    bitAt_getLsbD (by decide), bitAt_getLsbD (by decide), BitVec.getLsbD_ofNat, Nat.testBit_mul_two_pow]
  simp [hj]

/-- Each field of STATUS in its bits, the reserved bits 0 (10_state R28). -/
theorem statusWord_fields (t : Status) : (statusWord t).getLsbD 0 = t.busy ∧ (statusWord t).getLsbD 1 = t.done ∧
    (statusWord t).getLsbD 2 = t.ovr ∧ (statusWord t).getLsbD 3 = false ∧
    (statusWord t).extractLsb' 4 4 = BitVec.ofNat 4 (errCode t.err) ∧ (statusWord t).extractLsb' 8 56 = 0 := by
  refine ⟨?_, ?_, ?_, ?_, ?_, ?_⟩
  · rw [statusWord_getLsbD t (by decide)]
    simp
  · rw [statusWord_getLsbD t (by decide)]
    simp
  · rw [statusWord_getLsbD t (by decide)]
    simp
  · rw [statusWord_getLsbD t (by decide)]
    simp
  · refine BitVec.eq_of_getLsbD_eq fun k hk => ?_
    rw [BitVec.getLsbD_extractLsb', statusWord_getLsbD t (by omega), BitVec.getLsbD_ofNat]
    simp [hk, show ¬0 = 4 + k by omega, show ¬1 = 4 + k by omega, show ¬2 = 4 + k by omega]
  · refine BitVec.eq_of_getLsbD_eq fun k hk => ?_
    have hcode : (errCode t.err).testBit (8 + k - 4) = false :=
      Nat.testBit_eq_false_of_lt ((errCode_lt _).trans_le (Nat.pow_le_pow_right (by decide) (by omega)))
    rw [BitVec.getLsbD_extractLsb', statusWord_getLsbD t (by omega), hcode]
    simp [show ¬0 = 8 + k by omega, show ¬1 = 8 + k by omega, show ¬2 = 8 + k by omega]

/-! ### Accesses of the window -/

/-- The width and alignment that the window takes (10_state R22). -/
theorem fullAligned_iff {p : Config.Platform} {addr bytes : Nat} : fullAligned p addr bytes = true ↔
    bytes = 8 ∧ brxBase p ≤ addr ∧ (addr - brxBase p) % 8 = 0 := by
  simp [fullAligned, and_assoc]

/-- An access that reaches a byte of the window touches it. -/
theorem touchesWindow_of_byte {p : Config.Platform} {addr bytes k : Nat} (hk : k < bytes)
    (hlo : brxBase p ≤ addr + k) (hhi : addr + k < brxBase p + 0x100) : touchesWindow p addr bytes = true := by
  rw [touchesWindow, Bool.and_eq_true, decide_eq_true_iff, decide_eq_true_iff, windowSize]
  omega

/-- A window read of the wrong width or alignment (10_state R22). -/
theorem busRead_unaligned {s : State} {addr bytes : Nat} (ht : touchesWindow s.platform addr bytes = true)
    (hf : fullAligned s.platform addr bytes = false) : busRead s addr bytes = s.setReply .busError := by
  rw [busRead, if_neg (by simp [ht]), if_pos hf]

/-- A window write of the wrong width or alignment (10_state R22). -/
theorem busWrite_unaligned {s : State} {addr : Nat} {data : List Byte}
    (ht : touchesWindow s.platform addr data.length = true)
    (hf : fullAligned s.platform addr data.length = false) : busWrite s addr data = s.setReply .busError := by
  rw [busWrite, if_neg (by simp [ht]), if_pos hf]

/-- The window takes an aligned 64-bit write, with reset asserted or not (log entry 9). -/
theorem busWrite_aligned_reply (s : State) {off : Nat} {data : List Byte} (h : off < 0x100) (h8 : off % 8 = 0)
    (hd : data.length = 8) : (busWrite s (brxBase s.platform + off) data).reply = .taken := by
  cases hr : s.resetAsserted with
  | false => rw [busWrite_aligned s h h8 hd hr, State.setReply_reply]
  | true =>
    obtain ⟨htouch, hfull⟩ := window_aligned s.platform h h8
    simp [busWrite, hd, htouch, hfull, hr]

/-- While reset is asserted a write changes the reply only (70_reset_and_hazards R160; log entry 9). -/
theorem busWrite_inReset {s : State} (h : s.resetAsserted = true) (addr : Nat) (data : List Byte) :
    ∃ r, busWrite s addr data = s.setReply r :=
  (busWrite_cases s addr data).resolve_right fun ⟨hr, _⟩ => absurd (h.symm.trans hr) (by decide)

/-! ### Accept as the effect of a CMD write -/

/-- A CMD write while BUSY = 0 is an Accept (10_state R41). -/
theorem writeReg_cmd_idle {s : State} (hb : s.status.busy = false) (v : Word) : writeReg s 0x10 v = s.accept v :=
  if_neg (by simp [hb])

theorem busWrite_cmd_idle {s : State} (hb : s.status.busy = false) (hr : s.resetAsserted = false) (v : Word) :
    busWrite s (brxBase s.platform + 0x10) (bytesOfWord v) = (s.accept v).setReply .taken := by
  rw [busWrite_aligned s (by decide) (by decide) (bytesOfWord_length v) hr, wordOfBytes_bytesOfWord,
    writeReg_cmd_idle hb]

@[simp] theorem State.accept_platform (s : State) (v : Word) : (s.accept v).platform = s.platform := by
  rw [accept_eq, State.latch_platform]

@[simp] theorem State.accept_status (s : State) (v : Word) : (s.accept v).status = Status.accepted := by
  rw [accept_eq, State.latch_status]

@[simp] theorem State.accept_cmd (s : State) (v : Word) : (s.accept v).cmd = v := by
  rw [accept_eq, State.latch_cmd]

@[simp] theorem State.accept_din (s : State) (v : Word) : (s.accept v).din = s.din := by
  rw [accept_eq, State.latch_din]

@[simp] theorem State.accept_dout (s : State) (v : Word) : (s.accept v).dout = s.dout := by
  rw [accept_eq, State.latch_dout]

@[simp] theorem State.accept_src (s : State) (v : Word) : (s.accept v).src = s.src := by
  rw [accept_eq, State.latch_src]

@[simp] theorem State.accept_dst (s : State) (v : Word) : (s.accept v).dst = s.dst := by
  rw [accept_eq, State.latch_dst]

@[simp] theorem State.accept_len (s : State) (v : Word) : (s.accept v).len = s.len := by
  rw [accept_eq, State.latch_len]

@[simp] theorem State.accept_cur (s : State) (v : Word) : (s.accept v).cur =
    { cmd := v, din := s.din, src := srcReg s, dst := dstReg s, len := s.len } := by
  rw [accept_eq, State.latch_cur]

@[simp] theorem State.accept_resetAsserted (s : State) (v : Word) : (s.accept v).resetAsserted = s.resetAsserted := by
  rw [accept_eq, State.latch_resetAsserted]

@[simp] theorem State.accept_host (s : State) (v : Word) : (s.accept v).host = s.host := by
  rw [accept_eq, State.latch_host]

@[simp] theorem State.accept_turns (s : State) (v : Word) : (s.accept v).turns = s.turns := by
  rw [accept_eq, State.latch_turns]

/-- The pending stores that Accept leaves waiting: those to bytes the command does not own. -/
@[simp] theorem State.accept_unseen (s : State) (v : Word) :
    (s.accept v).unseen = s.unseen.filter (fun c => !owns (s.latch v) c.1) := by
  rw [accept_eq]

/-- Accept marks the command raced where a pending store is to one of its bytes. -/
@[simp] theorem State.accept_raced (s : State) (v : Word) :
    (s.accept v).raced = s.unseen.any (fun c => owns (s.latch v) c.1) := by
  rw [accept_eq]

/-- The command that an Accept latches owns its bytes from the Accept on. -/
theorem owns_accept (s : State) (v : Word) (a : Nat) : owns (s.accept v) a = owns (s.latch v) a :=
  owns_congr (by simp) (by simp) a

theorem ownsWritten_accept (s : State) (v : Word) (a : Nat) : ownsWritten (s.accept v) a = ownsWritten (s.latch v) a :=
  ownsWritten_congr (by simp) (by simp) a

/-- The pending stores that race with an Accept of `v`, oldest first (20_memory R59). -/
def State.racingStores (s : State) (v : Word) : List Host.Cell := s.unseen.filter (fun c => owns (s.latch v) c.1)

/-- The state of an Accept before its racing stores: latched, the others left pending. -/
def State.latchPending (s : State) (v : Word) : State :=
  { s.latch v with unseen := s.unseen.filter (fun c => !owns (s.latch v) c.1) }

/-- Accept runs the racing stores in their order on the latched state (20_memory R59). -/
theorem accept_eq_foldl (s : State) (v : Word) :
    s.accept v = (s.racingStores v).foldl State.raceStore (s.latchPending v) := rfl

/-- Each store that races with an Accept draws once (log entry 5). -/
theorem accept_draws (s : State) (v : Word) :
    (s.accept v).draws = s.draws + (s.racingStores v).length := by
  rw [accept_eq_foldl, foldl_raceStore_draws]
  rfl

/-- A byte that the accepted command only reads takes the newest store to it (20_memory R58, R59; log entry 23). -/
theorem accept_read_unwritten {s : State} (hw : s.mem.wf = true) {v : Word} {a : Nat}
    (ho : owns (s.latch v) a = true) (hn : ownsWritten (s.latch v) a = false) :
    (s.accept v).mem.read a = (pendingByte s.unseen a).getD (s.mem.read a) := by
  have hnewest : pendingByte (s.racingStores v) a = pendingByte s.unseen a :=
    pendingByte_filter (fun a => owns (s.latch v) a) ho s.unseen
  rw [accept_eq_foldl, foldl_raceStore_read_unwritten (s.racingStores v) (s.latchPending v) hw hn, hnewest]
  rfl

/-- A byte that the accepted command writes holds what it held or a byte stored to it (20_memory R58). -/
theorem accept_read_cases {s : State} (hw : s.mem.wf = true) (v : Word) (a : Nat) :
    (s.accept v).mem.read a = s.mem.read a ∨ ∃ c ∈ s.unseen, c.1 = a ∧ (s.accept v).mem.read a = c.2 := by
  rw [accept_eq_foldl]
  rcases foldl_raceStore_read_cases (a := a) (s.racingStores v) (s.latchPending v) hw with hold | ⟨c, hc, hca, hread⟩
  · exact Or.inl hold
  · exact Or.inr ⟨c, (List.mem_filter.mp hc).1, hca, hread⟩

/-- Where one store races with an Accept, to a written byte, a free value says whether it is lost (20_memory R58). -/
theorem accept_read_single {s : State} (hw : s.mem.wf = true) {v : Word} {c : Host.Cell}
    (hc : s.racingStores v = [c]) (ho : ownsWritten (s.latch v) c.1 = true) :
    (s.accept v).mem.read c.1 = if Config.writeLost s.draws = true then s.mem.read c.1 else c.2 := by
  have hrace : (s.accept v).mem = if Config.writeLost s.draws = true then s.mem else s.mem.write c.1 c.2 := by
    rw [accept_eq_foldl, hc, List.foldl_cons, List.foldl_nil, State.raceStore_mem,
      show ownsWritten (s.latchPending v) c.1 = true from ho, Bool.true_and]
    rfl
  rw [hrace]
  split
  · rfl
  · rw [Memory.read_write hw, if_pos rfl]

/-! ### The statements -/

/-- Settles O3: the fields of STATUS, the code of each outcome written out. -/
theorem statusReadsItsFieldsInPlace : Obligations.StatusReadsItsFieldsInPlace := by
  intro s
  obtain ⟨hbusy, hdone, hovr, hzero, herr, hhigh⟩ := statusWord_fields s.status
  have hcode : ∀ {e}, s.status.err = e → (readReg s 0x08).extractLsb' 4 4 = BitVec.ofNat 4 (errCode e) := by
    rintro _ rfl
    exact herr
  exact ⟨hbusy, hdone, hovr, hzero, hhigh, hcode, hcode, hcode, hcode, hcode, hcode⟩

/-- Settles O6: by whether the access has the width and alignment that the window takes. -/
theorem onlyAlignedFullAccessesAreTaken : Obligations.OnlyAlignedFullAccessesAreTaken := by
  rintro s addr bytes ⟨k, hk, hlo, hhi⟩
  have htouch := touchesWindow_of_byte hk hlo hhi
  refine ⟨?_, fun hno => ?_⟩
  · rintro ⟨rfl, hbase, h8⟩
    obtain ⟨off, rfl⟩ := Nat.exists_eq_add_of_le hbase
    rw [Nat.add_sub_cancel_left] at h8
    have hoff : off < 0x100 := by omega
    exact ⟨⟨_, bytesOfWord_length _, busRead_aligned s hoff h8⟩, fun data hd => busWrite_aligned_reply s hoff h8 hd⟩
  · have hfull : fullAligned s.platform addr bytes = false := by
      rw [← Bool.not_eq_true, fullAligned_iff]
      exact hno
    refine ⟨busRead_unaligned htouch hfull, ?_⟩
    rintro data rfl
    exact busWrite_unaligned htouch hfull

/-- Settles O7: an aligned read at each register's offset. -/
theorem readsReturnTheRegisters : Obligations.ReadsReturnTheRegisters := by
  intro s
  have hread : ∀ off, off < 0x100 → off % 8 = 0 →
      busRead s (brxBase s.platform + off) 8 = s.setReply (.data (bytesOfWord (readReg s off))) := fun _ =>
    busRead_aligned s
  refine ⟨?_, ⟨_, hread 0x08 (by decide) (by decide), statusWord_fields s.status⟩, hread 0x10 (by decide) (by decide),
    hread 0x18 (by decide) (by decide), hread 0x20 (by decide) (by decide), hread 0x38 (by decide) (by decide),
    ⟨_, hread 0x28 (by decide) (by decide), addrBits_getLsbD _ _⟩,
    ⟨_, hread 0x30 (by decide) (by decide), addrBits_getLsbD _ _⟩⟩
  rw [hread 0x00 (by decide) (by decide), readReg_id]

/-- Settles O8: the lanes are the bytes of the value, and the lanes put together are the value. -/
theorem registerBytesAreLittleEndian : Obligations.RegisterBytesAreLittleEndian := fun v =>
  ⟨bytesOfWord_length v, fun _ hk => bytesOfWord_getElem? v hk, wordOfBytes_bytesOfWord v⟩

/-- Settles O9: an aligned write at each operand register's offset, which does not look at BUSY. -/
theorem operandWritesChangeOnlyTheirRegister : Obligations.OperandWritesChangeOnlyTheirRegister := by
  intro s v hr
  have hwrite : ∀ off, off < 0x100 → off % 8 = 0 →
      busWrite s (brxBase s.platform + off) (bytesOfWord v) = (writeReg s off v).setReply .taken := by
    intro off hoff h8
    rw [busWrite_aligned s hoff h8 (bytesOfWord_length v) hr, wordOfBytes_bytesOfWord]
  exact ⟨hwrite 0x18 (by decide) (by decide), hwrite 0x38 (by decide) (by decide), _, addrBits_getLsbD s.platform v,
    hwrite 0x28 (by decide) (by decide), hwrite 0x30 (by decide) (by decide)⟩

/-- Settles O10: the fields of the latched state; without a racing store the Accept is the latching alone. -/
theorem acceptLatchesTheOperands : Obligations.AcceptLatchesTheOperands := by
  rintro s t v hb hr rfl
  rw [busWrite_cmd_idle hb hr]
  refine ⟨s.accept_cmd v, s.accept_cur v, s.accept_status v, s.accept_din v, s.accept_dout v, s.accept_src v,
    s.accept_dst v, s.accept_len v, s.accept_platform v, s.accept_resetAsserted v, s.accept_host v, s.accept_turns v,
    rfl, fun hfree => ?_⟩
  have haccept : s.accept v = s.latch v := accept_eq_latch fun c hc => (owns_accept s v c.1).symm.trans (hfree c hc)
  rw [haccept]
  exact ⟨rfl, rfl, rfl, rfl⟩

/-- Settles O11: the Accept runs the stores to owned bytes as racing stores, in their order. -/
theorem storesUnseenAtAcceptRace : Obligations.StoresUnseenAtAcceptRace := by
  rintro s t v hb hr ht ⟨c, hc, hown⟩
  obtain rfl : t = (s.accept v).setReply .taken := ht.trans (busWrite_cmd_idle hb hr v)
  have howns : ∀ a, owns ((s.accept v).setReply .taken) a = owns (s.latch v) a := owns_accept s v
  have hwrites : ∀ a, ownsWritten ((s.accept v).setReply .taken) a = ownsWritten (s.latch v) a := ownsWritten_accept s v
  simp only [howns, hwrites] at hown ⊢
  refine ⟨(s.accept_raced v).trans (List.any_eq_true.mpr ⟨c, hc, hown⟩), s.accept_unseen v, accept_draws s v,
    fun hw => ?_⟩
  obtain ⟨hwf, hkept⟩ := accept_mem hw v
  exact ⟨hwf, hkept, fun a => accept_read_unwritten hw, fun a _ => accept_read_cases hw v a,
    fun c => accept_read_single hw⟩

/-- Settles O13: the Complete ends the command that the rejected write left in flight; after a Complete BUSY = 0. -/
theorem rejectedWriteAndCompleteInEitherOrder : Obligations.RejectedWriteAndCompleteInEitherOrder := by
  intro s t v hb hr
  refine ⟨fun h => ?_, fun h => ?_⟩
  · rw [commandWriteWhileBusyOnlySetsOvr s v hb hr] at h
    obtain ⟨hbusy, -, hovr, hframe⟩ := sequencerTurn_ended (s := s.reject.setReply .taken) hb h
    have hcmd := congrArg State.cmd hframe
    exact ⟨hovr, hbusy, hcmd⟩
  · obtain ⟨hbusy, -, -, hframe⟩ := sequencerTurn_ended hb h
    have hreset : t.resetAsserted = false := (congrArg State.resetAsserted hframe).trans hr
    rw [busWrite_cmd_idle hbusy hreset]
    exact ⟨t.accept_status v, congrArg Latched.cmd (t.accept_cur v)⟩

end Sys2Proof.Machine
end

section
/-! SUPPORT. What an agent's access to a byte of the memory answers, how pending stores arrive, what a reset leaves, and
the statements on the agents and on single steps settled from them (10_state R40 to R43; 20_memory R50, R58, R59;
30_encoding R80; 70_reset_and_hazards R160, R161). -/

namespace Sys2Proof.Machine

/-! ### Loads and stores of one byte -/

/-- The host's store joins the pending ones (20_memory R59; log entry 10). -/
def State.delayStore (s : State) (c : Host.Cell) : State := { s with unseen := s.unseen ++ [c], reply := .taken }

section
variable {s : State} {a : Nat}

/-- An address the memory does not have (20_memory R50; log entry 14). -/
theorem loadByte_outside (who : Master) (h : memSize s.platform ≤ a) : loadByte s who a = .fault .noSuchAddress :=
  if_pos h

theorem storeByte_outside (who : Master) (b : Byte) (h : memSize s.platform ≤ a) :
    storeByte s who a b = .fault .noSuchAddress :=
  if_pos h

/-- A load of a byte of the command in flight races with it (20_memory R58). -/
theorem loadByte_owned (who : Master) (ha : a < memSize s.platform) (hs : hasSideEffects s.platform a = false)
    (ho : owns s a = true) : loadByte s who a =
      .next { s with reply := .data [Config.anyByte s.draws a], draws := s.draws + 1, raced := true } := by
  rw [loadByte, if_neg ha.not_ge, if_neg (by simp [hs]), if_pos ho]

/-- A load of any other byte gives what the master sees. -/
theorem loadByte_free (who : Master) (ha : a < memSize s.platform) (hs : hasSideEffects s.platform a = false)
    (ho : owns s a = false) : loadByte s who a = .next (s.setReply (.data [viewByte s who a])) := by
  rw [loadByte, if_neg ha.not_ge, if_neg (by simp [hs]), if_neg (by simp [ho])]

/-- A store to a byte of the command in flight races with it (20_memory R58). -/
theorem storeByte_owned (who : Master) (b : Byte) (ha : a < memSize s.platform)
    (hs : hasSideEffects s.platform a = false) (ho : owns s a = true) :
    storeByte s who a b = .next ((s.raceStore (a, b)).setReply .taken) := by
  unfold storeByte
  rw [if_neg ha.not_ge, if_neg (by simp [hs]), if_pos ho]

/-- A host store to any other byte waits to become visible (20_memory R59). -/
theorem storeByte_host_free (b : Byte) (ha : a < memSize s.platform) (hs : hasSideEffects s.platform a = false)
    (ho : owns s a = false) : storeByte s .host a b = .next (s.delayStore (a, b)) := by
  rw [storeByte, if_neg ha.not_ge, if_neg (by simp [hs]), if_neg (by simp [ho])]
  rfl

/-- Another master's store to any other byte is visible at once. -/
theorem storeByte_other_free (b : Byte) (ha : a < memSize s.platform) (hs : hasSideEffects s.platform a = false)
    (ho : owns s a = false) :
    storeByte s .other a b = .next ((s.setMem (s.mem.write a b)).setReply .taken) := by
  rw [storeByte, if_neg ha.not_ge, if_neg (by simp [hs]), if_neg (by simp [ho])]

end

/-! ### The arrival of pending stores -/

theorem makeVisible_nil {s : State} (h : s.unseen = []) : s.makeVisible = s := by
  rw [State.makeVisible, h]

/-- The oldest pending store, to a byte no command owns, is an ordinary write when it arrives. -/
theorem makeVisible_cons {s : State} {c : Host.Cell} {rest : List Host.Cell} (h : s.unseen = c :: rest)
    (ho : owns s c.1 = false) : s.makeVisible = { s with unseen := rest, mem := s.mem.write c.1 c.2 } := by
  rw [State.makeVisible, h]
  exact landStore_free (s := { s with unseen := rest }) ho

/-- Pending stores to bytes no command owns are a run of ordinary writes when a fence brings them to memory. -/
theorem makeAllVisible_free {s : State} (h : ∀ c ∈ s.unseen, owns s c.1 = false) :
    s.makeAllVisible = { s with unseen := [], mem := s.unseen.foldl (fun m c => m.write c.1 c.2) s.mem } :=
  foldl_landStore_free s.unseen { s with unseen := [] } h

/-! ### Reset -/

theorem assertReset_brxAtReset (s : State) : BrxAtReset s.assertReset := ⟨rfl, rfl, rfl, rfl, rfl, rfl, rfl, rfl⟩

@[simp] theorem assertReset_mem (s : State) : s.assertReset.mem = s.abandon.mem := rfl

/-- What a reset leaves of the command it cuts: free bytes, and the draw they took (70_reset_and_hazards R161). -/
theorem abandon_eq (s : State) : s.abandon = { s with mem := s.abandon.mem, draws := s.abandon.draws } := by
  unfold State.abandon
  split
  · split
    · rfl
    · rfl
  · rfl

@[simp] theorem assertReset_platform (s : State) : s.assertReset.platform = s.platform := by
  rw [State.assertReset, abandon_eq, State.clearBrx_platform]

@[simp] theorem assertReset_unseen (s : State) : s.assertReset.unseen = s.unseen := by
  rw [State.assertReset, abandon_eq, State.clearBrx_unseen]

@[simp] theorem assertReset_turns (s : State) : s.assertReset.turns = s.turns := by
  rw [State.assertReset, abandon_eq, State.clearBrx_turns]

theorem deassertReset_asserted {s : State} (h : s.resetAsserted = true) :
    s.deassertReset = { s.clearBrx with resetAsserted := false } :=
  if_pos h

theorem deassertReset_brxAtReset {s : State} (h : s.resetAsserted = true) : BrxAtReset s.deassertReset := by
  rw [deassertReset_asserted h]
  exact ⟨rfl, rfl, rfl, rfl, rfl, rfl, rfl, rfl⟩

theorem deassertReset_idle {s : State} (h : s.resetAsserted = false) : s.deassertReset = s :=
  if_neg (by simp [h])

/-- Without a command in flight a reset cuts nothing. -/
theorem abandon_idle {s : State} (h : s.status.busy = false) : s.abandon = s :=
  if_neg (by simp [h])

/-- A legal command in flight leaves free bytes in its written region (70_reset_and_hazards R161). -/
theorem abandon_decoded {s : State} {i : Instr} (hb : s.status.busy = true) (hd : decode s.cur.cmd = .ok i) :
    s.abandon = s.scrambleRegion (writtenRegion i s.cur) := by
  rw [State.abandon, if_pos hb, hd]

/-- An illegal word in flight leaves nothing (log entry 8). -/
theorem abandon_rejected {s : State} {e : DecodeReject} (hd : decode s.cur.cmd = .error e) : s.abandon = s := by
  rw [State.abandon, hd]
  exact ite_self s

theorem abandon_illegal {s : State} (h : ¬LegalWord s.cur.cmd) : s.abandon = s := by
  cases hd : decode s.cur.cmd with
  | ok i => exact absurd ((exists_decode_ok_iff_legalWord _).mp ⟨i, hd⟩) h
  | error e => exact abandon_rejected hd

/-- A region without bytes frees none. -/
theorem scrambleRegion_empty_mem (s : State) : (s.scrambleRegion Region.empty).mem = s.mem := by
  rw [State.scrambleRegion_mem, Region.clip, Region.empty, Nat.zero_min]
  rfl

/-! ### Turns -/

/-- A step is the turn of the agent whose turn it is. -/
theorem step_of_nextTurn {s : State} {t : Turn} (h : nextTurn s = t) : step s = runTurn t s.popTurn := by
  rw [step, h]

theorem placedWord_encode (i : Instr) : placedWord 64 (encode i).toNat = encode i := by
  rw [placedWord, Nat.mod_eq_of_lt (encode i).isLt, BitVec.ofNat_toNat, BitVec.setWidth_eq]

/-! ### The statements -/

/-- Settles O39: a load and a store of a byte that the command in flight owns. -/
theorem accessesToOwnedBytesRace : Obligations.AccessesToOwnedBytesRace := by
  intro s who a b ha hs ho
  refine ⟨loadByte_owned who ha hs ho, ?_⟩
  have hmem : (s.raceStore (a, b)).mem =
      if ownsWritten s a = true ∧ Config.writeLost s.draws = true then s.mem else s.mem.write a b := by
    simp only [State.raceStore_mem, Bool.and_eq_true]
  rw [storeByte_owned who b ha hs ho, raceStore_eq, hmem]
  rfl

/-- Settles O41: the pending list's newest store is the host's view, and at the fence it is the newest write. -/
theorem hostStoresBecomeVisibleLater : Obligations.HostStoresBecomeVisibleLater := by
  intro s a b hwf ha hs ho
  have hload : ∀ who, loadByte (s.delayStore (a, b)) who a =
      .next ((s.delayStore (a, b)).setReply (.data [viewByte (s.delayStore (a, b)) who a])) := fun who =>
    loadByte_free (s := s.delayStore (a, b)) who ha hs ho
  refine ⟨s.delayStore (a, b), storeByte_host_free b ha hs ho, rfl, ?_, hload .other, fun hfree => ?_⟩
  · rw [hload, viewByte, State.delayStore, pendingByte_append, Option.getD_some]
  · have hall : ∀ c ∈ s.unseen ++ [(a, b)], owns s c.1 = false :=
      List.forall_mem_append.mpr ⟨hfree, List.forall_mem_singleton.mpr ho⟩
    refine ⟨(s.unseen ++ [(a, b)]).foldl (fun m c => m.write c.1 c.2) s.mem, ?_, (foldl_write _ hwf).1, ?_,
      foldl_write_read _ hwf⟩
    · rw [act, makeAllVisible_free (s := s.delayStore (a, b)) hall]
      rfl
    · rw [foldl_write_read _ hwf, pendingByte_append, Option.getD_some]

/-- Settles O42: the loads and the other master's store of a byte no command owns. -/
theorem unownedLoadsAndStoresComplete : Obligations.UnownedLoadsAndStoresComplete := by
  intro s a b hwf ha hs ho
  refine ⟨loadByte_free .host ha hs ho, loadByte_free .other ha hs ho, s.mem.write a b, storeByte_other_free b ha hs ho,
    Memory.write_wf hwf a b, ?_, fun x hx => ?_⟩
  · rw [Memory.read_write hwf, if_pos rfl]
  · rw [Memory.read_write hwf, if_neg hx]

/-- Settles O43: the turn lands the head of the pending list, an ordinary write. -/
theorem visibleTurnLandsTheOldestStore : Obligations.VisibleTurnLandsTheOldestStore := by
  intro s hturn
  rw [step_of_nextTurn hturn]
  refine ⟨fun hnil => ?_, fun c rest hcons ho hwf => ⟨s.mem.write c.1 c.2, ?_, Memory.write_wf hwf _ _, ?_,
    fun x hx => ?_⟩⟩
  · rw [runTurn, makeVisible_nil (s := s.popTurn) hnil]
    rfl
  · rw [runTurn, makeVisible_cons (s := s.popTurn) hcons ho]
    rfl
  · rw [Memory.read_write hwf, if_pos rfl]
  · rw [Memory.read_write hwf, if_neg hx]

/-- Settles O44: the first check of a load and of a store. -/
theorem addressesOutsideTheSpaceFault : Obligations.AddressesOutsideTheSpaceFault := fun _ who _ b h =>
  ⟨loadByte_outside who h, storeByte_outside who b h⟩

/-- Settles O45: both reset turns clear the BRX part, and the window ignores writes while reset is asserted. -/
theorem resetInputClearsBrx : Obligations.ResetInputClearsBrx := by
  intro s
  refine ⟨fun hturn => ?_, fun hturn hreset => ?_, busWrite_inReset⟩
  · refine ⟨_, step_of_nextTurn hturn, assertReset_brxAtReset _, rfl, fun hidle => ?_⟩
    rw [assertReset_mem, abandon_idle (s := s.popTurn) hidle, State.popTurn_mem]
  · refine ⟨_, step_of_nextTurn hturn, deassertReset_brxAtReset (s := s.popTurn) hreset, ?_⟩
    rw [deassertReset_asserted (s := s.popTurn) hreset]
    exact ⟨rfl, rfl⟩

/-- Settles O46: the reset frees the written region of the command it cuts, which a PN command has none of. -/
theorem resetDuringACommandFreesItsRegion : Obligations.ResetDuringACommandFreesItsRegion := by
  intro s hwf hb hturn
  have hfrees : ∀ {i}, decode s.cur.cmd = .ok i →
      FreesRegion s.platform (writtenRegion i s.cur) s.draws s.mem s.popTurn.assertReset.mem := fun hd => by
    rw [assertReset_mem, abandon_decoded (s := s.popTurn) hb hd]
    exact scrambleRegion_frees (s := s.popTurn) hwf _
  refine ⟨_, step_of_nextTurn hturn, assertReset_brxAtReset _, rfl, fun i hi hd => ?_, fun hillegal => ?_,
    fun sp hd => ?_, fun sp dp hd => ?_⟩
  · have hregion : writtenRegion i s.cur = Region.empty := by
      simp only [List.mem_cons, List.not_mem_nil, or_false] at hi
      rcases hi with rfl | rfl | rfl | rfl <;> rfl
    rw [assertReset_mem, abandon_decoded (s := s.popTurn) hb hd, State.popTurn_cur, hregion, scrambleRegion_empty_mem,
      State.popTurn_mem]
  · rw [assertReset_mem, abandon_illegal (s := s.popTurn) hillegal, State.popTurn_mem]
  · obtain ⟨hsame, hfree⟩ := hfrees hd
    exact ⟨hfree, fun _ => hsame.read⟩
  · obtain ⟨hsame, hfree⟩ := hfrees hd
    exact ⟨hfree, fun _ => hsame.read⟩

/-- Settles O47: the sequencer's turn with a legal command in flight. -/
theorem stepRunsTheDecodedCommand : Obligations.StepRunsTheDecodedCommand := by
  intro s i hturn hb hd
  rw [step_of_nextTurn hturn]
  exact sequencerTurn_decoded (s := s.popTurn) hb hd

/-- Settles O48: the placed command is in flight, the sequencer is next, and the Accept left the schedule as it was. -/
theorem placedCommandRunsNext : Obligations.PlacedCommandRunsNext := by
  intro s i
  have hbusy : (s.accept (encode i)).status.busy = true := congrArg Status.busy (s.accept_status _)
  have hcmd : (s.accept (encode i)).cur.cmd = encode i := congrArg Latched.cmd (s.accept_cur _)
  rw [State.withFetchWord, placedWord_encode,
    stepRunsTheDecodedCommand (s.placeCommand (encode i)) i rfl hbusy (decode_eq_ok_iff.mpr hcmd),
    State.placeCommand, List.tail_cons, ← s.accept_turns (encode i)]

/-- Settles O49: a poll is an aligned read of STATUS, and the line stays while BUSY = 1. -/
theorem pollRepeatsWhileBusy : Obligations.PollRepeatsWhileBusy := by
  intro s rest hhost
  simp only [hostTurn, hhost, act, repeats]
  exact congrArg Host.Outcome.next
    (busRead_aligned { s with host := if s.status.busy then .poll :: rest else rest } (by decide) (by decide))

end Sys2Proof.Machine
end

section
/-! SUPPORT. The invariant of every state a run reaches: what keeps each part of it, and that every step keeps it. -/

namespace Sys2Proof.Machine

/-! ### Memories inside the address space -/

/-- The memory is canonical and holds nothing past the address space (20_memory R50). -/
structure MemFits (p : Config.Platform) (m : Memory) : Prop where
  wf : m.wf = true
  inside : ∀ a, memSize p ≤ a → m.read a = Memory.fill

/-- A canonical memory that reads as a fitting one past the address space fits. -/
theorem MemFits.of_read {p : Config.Platform} {m m' : Memory} (h : MemFits p m) (hwf : m'.wf = true)
    (hread : ∀ a, memSize p ≤ a → m'.read a = m.read a) : MemFits p m' where
  wf := hwf
  inside a ha := (hread a ha).trans (h.inside a ha)

theorem MemFits.write {p : Config.Platform} {m : Memory} (h : MemFits p m) {a : Nat} (ha : a < memSize p) (b : Byte) :
    MemFits p (m.write a b) :=
  h.of_read (Memory.write_wf h.wf a b) fun x hx => by
    rw [Memory.read_write h.wf, if_neg (ha.trans_le hx).ne']

theorem MemFits.foldl_write {p : Config.Platform} {m : Memory} (h : MemFits p m) {l : List Host.Cell}
    (hl : ∀ c ∈ l, c.1 < memSize p) : MemFits p (l.foldl (fun m c => m.write c.1 c.2) m) := by
  obtain ⟨hwf, hread⟩ := Machine.foldl_write l h.wf
  exact h.of_read hwf fun a ha => hread a fun c hc => ((hl c hc).trans_le ha).ne

/-- A change within the existing part of a region stays inside the address space. -/
theorem MemFits.of_sameOutside {p : Config.Platform} {r : Region} {m m' : Memory} (h : MemFits p m)
    (hsame : SameOutside p r m m') : MemFits p m' :=
  h.of_read hsame.wf fun a ha => hsame.outside a fun hreg => hreg.1.not_ge ha

theorem Inv.memFits {s : State} (h : Inv s) : MemFits s.platform s.mem := ⟨h.memCanonical, h.memInside⟩

/-- A racing store, lost or not, is to one existing address. -/
theorem MemFits.raceStore {s : State} (h : MemFits s.platform s.mem) {c : Host.Cell} (hc : c.1 < memSize s.platform) :
    MemFits s.platform (s.raceStore c).mem :=
  h.of_read (raceStore_wf h.wf c) fun a ha => raceStore_read h.wf c a (hc.trans_le ha).ne'

/-- A reset turn's free bytes are clipped to the address space (log entry 8). -/
theorem MemFits.abandon {s : State} (h : MemFits s.platform s.mem) : MemFits s.platform s.abandon.mem := by
  by_cases hb : s.status.busy = true
  · cases hd : decode s.cur.cmd with
    | ok i =>
      rw [abandon_decoded hb hd]
      exact h.of_sameOutside (scrambleRegion_frees h.wf _).same
    | error e => rwa [abandon_rejected hd]
  · rwa [abandon_idle (by simpa using hb)]

/-! ### Updates that keep the invariant -/

/-- The agents around the block may change memory, the pending stores, the race mark and their own fields, as long as
memory and the pending stores stay inside the address space and races and pending stores respect ownership. -/
theorem Inv.of_agents {s : State} (h : Inv s) {m : Memory} {raced : Bool} {unseen : List Host.Cell} {draws : Nat}
    {host : List Action} {turns : List Turn} {reply : Reply} (hm : MemFits s.platform m)
    (hraced : raced = true → ∃ a, owns s a = true)
    (hunseen : ∀ c ∈ unseen, c.1 < memSize s.platform ∧ owns s c.1 = false) :
    Inv { s with mem := m, raced := raced, unseen := unseen, draws := draws, host := host, turns := turns,
                 reply := reply } where
  memCanonical := hm.wf
  memInside := hm.inside
  unseenInside c hc := (hunseen c hc).1
  addrRegsFit := h.addrRegsFit
  latchedFit := h.latchedFit
  notBusyAndDone := h.notBusyAndDone
  errOkWhileBusy := h.errOkWhileBusy
  idleSinceReset := h.idleSinceReset
  cmdInFlight := h.cmdInFlight
  racedOwns := hraced
  unseenNotOwned c hc := (hunseen c hc).2
  heldInReset hr :=
    have ⟨hstatus, hcmd, hdin, hdout, hsrc, hdst, hlen, hcur⟩ := h.heldInReset hr
    ⟨hstatus, hcmd, hdin, hdout, hsrc, hdst, hlen, hcur⟩

theorem Inv.pendingStores {s : State} (h : Inv s) : ∀ c ∈ s.unseen, c.1 < memSize s.platform ∧ owns s c.1 = false :=
  fun c hc => ⟨h.unseenInside c hc, h.unseenNotOwned c hc⟩

theorem Inv.setReply {s : State} (h : Inv s) (r : Reply) : Inv (s.setReply r) :=
  h.of_agents h.memFits h.racedOwns h.pendingStores

theorem Inv.popTurn {s : State} (h : Inv s) : Inv s.popTurn :=
  h.of_agents h.memFits h.racedOwns h.pendingStores

/-- Writes of the operand registers out of reset; SRC and DST keep `ADDR_W` bits (10_state R36, R38, R39). -/
theorem Inv.of_operands {s : State} (h : Inv s) (hr : s.resetAsserted = false) {din src dst len : Word}
    (hsrc : src.toNat < memSize s.platform) (hdst : dst.toNat < memSize s.platform) :
    Inv { s with din := din, src := src, dst := dst, len := len } where
  memCanonical := h.memCanonical
  memInside := h.memInside
  unseenInside := h.unseenInside
  addrRegsFit := ⟨hsrc, hdst⟩
  latchedFit := h.latchedFit
  notBusyAndDone := h.notBusyAndDone
  errOkWhileBusy := h.errOkWhileBusy
  idleSinceReset := h.idleSinceReset
  cmdInFlight := h.cmdInFlight
  racedOwns := h.racedOwns
  unseenNotOwned := h.unseenNotOwned
  heldInReset hreset := absurd (hr.symm.trans hreset) (by decide)

/-- A rejected CMD write sets OVR while a command is in flight (10_state R42). -/
theorem Inv.reject {s : State} (h : Inv s) (hb : s.status.busy = true) (hr : s.resetAsserted = false) :
    Inv s.reject where
  memCanonical := h.memCanonical
  memInside := h.memInside
  unseenInside := h.unseenInside
  addrRegsFit := h.addrRegsFit
  latchedFit := h.latchedFit
  notBusyAndDone := h.notBusyAndDone
  errOkWhileBusy := h.errOkWhileBusy
  idleSinceReset hidle := absurd (hb.symm.trans hidle) (by decide)
  cmdInFlight := h.cmdInFlight
  racedOwns := h.racedOwns
  unseenNotOwned := h.unseenNotOwned
  heldInReset hreset := absurd (hr.symm.trans hreset) (by decide)

/-- An Accept latches fitting addresses, and the stores that race with it leave the pending list (10_state R41,
20_memory R59). -/
theorem Inv.accept {s : State} (h : Inv s) (hr : s.resetAsserted = false) (v : Word) : Inv (s.accept v) where
  memCanonical := (accept_mem h.memCanonical v).1
  memInside a ha := by
    rw [State.accept_platform] at ha
    rw [(accept_mem h.memCanonical v).2 a fun c hc _ => ((h.unseenInside c hc).trans_le ha).ne]
    exact h.memInside a ha
  unseenInside c hc := by
    rw [State.accept_unseen] at hc
    rw [State.accept_platform]
    exact h.unseenInside c (List.mem_filter.mp hc).1
  addrRegsFit := by simpa using h.addrRegsFit
  latchedFit := by
    rw [State.accept_cur, State.accept_platform]
    exact ⟨addrBits_lt .., addrBits_lt ..⟩
  notBusyAndDone := by simp [Status.accepted]
  errOkWhileBusy _ := by simp [Status.accepted]
  idleSinceReset := by simp [Status.accepted]
  cmdInFlight _ := by simp
  racedOwns hraced := by
    rw [State.accept_raced, List.any_eq_true] at hraced
    obtain ⟨c, -, hown⟩ := hraced
    exact ⟨c.1, (owns_accept s v c.1).trans hown⟩
  unseenNotOwned c hc := by
    rw [State.accept_unseen, List.mem_filter] at hc
    simpa [owns_accept] using hc.2
  heldInReset hreset := absurd (hr.symm.trans ((s.accept_resetAsserted v).symm.trans hreset)) (by decide)

/-- A register write out of reset (10_state R21). -/
theorem Inv.writeReg {s : State} (h : Inv s) (hr : s.resetAsserted = false) (off : Nat) (v : Word) :
    Inv (writeReg s off v) := by
  obtain ⟨hsrc, hdst⟩ := h.addrRegsFit
  rcases writeReg_cases s off v with ⟨-, hb, hw⟩ | ⟨-, -, hw⟩ | hw | hw | hw | hw | hw <;> rw [hw]
  · exact h.reject hb hr
  · exact h.accept hr v
  · exact h.of_operands hr hsrc hdst
  · exact h.of_operands hr (addrBits_lt ..) hdst
  · exact h.of_operands hr hsrc (addrBits_lt ..)
  · exact h.of_operands hr hsrc hdst
  · exact h

/-- The end of a command with the race over (60_exceptions R141). -/
theorem Inv.of_ended {s t : State} (h : Inv s) (hb : s.status.busy = true) (hend : CommandEnded s t)
    (hm : MemFits s.platform t.mem) (hraced : t.raced = false) : Inv t := by
  obtain ⟨hbusy, hdone, -, hframe⟩ := hend
  have hplatform : t.platform = s.platform := by rw [hframe]
  have hidle : t.status.busy ≠ true := by simp [hbusy]
  exact
    { memCanonical := hm.wf
      memInside := by rw [hplatform]; exact hm.inside
      unseenInside := by rw [hframe]; exact h.unseenInside
      addrRegsFit := by rw [hframe]; exact h.addrRegsFit
      latchedFit := by rw [hframe]; exact h.latchedFit
      notBusyAndDone := fun hboth => hidle hboth.1
      errOkWhileBusy := fun hbusy' => absurd hbusy' hidle
      idleSinceReset := fun _ hdone' => absurd (hdone.symm.trans hdone') (by decide)
      cmdInFlight := fun hbusy' => absurd hbusy' hidle
      racedOwns := fun hraced' => absurd (hraced.symm.trans hraced') (by decide)
      unseenNotOwned := fun _ _ => owns_idle hbusy _
      heldInReset := fun hreset => by
        have hreset' : s.resetAsserted = true := by rwa [hframe] at hreset
        exact absurd (hb.symm.trans (congrArg Status.busy (h.heldInReset hreset').status)) (by decide) }

/-- With the BRX part at its reset values the invariant asks only for memory and the pending stores. -/
theorem BrxAtReset.inv {s : State} (h : BrxAtReset s) (hraced : s.raced = false) (hm : MemFits s.platform s.mem)
    (hunseen : ∀ c ∈ s.unseen, c.1 < memSize s.platform) : Inv s where
  memCanonical := hm.wf
  memInside := hm.inside
  unseenInside := hunseen
  addrRegsFit := by
    rw [h.src, h.dst]
    exact ⟨memSize_pos _, memSize_pos _⟩
  latchedFit := by
    rw [h.cur]
    exact ⟨memSize_pos _, memSize_pos _⟩
  notBusyAndDone := by simp [h.status]
  errOkWhileBusy := by simp [h.status]
  idleSinceReset _ _ := by simp [h.status, h.cmd, h.dout]
  cmdInFlight := by simp [h.status]
  racedOwns hraced' := absurd (hraced.symm.trans hraced') (by decide)
  unseenNotOwned _ _ := owns_idle (congrArg Status.busy h.status) _
  heldInReset _ := h

/-! ### Turns that keep the invariant -/

theorem Inv.makeAllVisible {s : State} (h : Inv s) : Inv s.makeAllVisible := by
  rw [makeAllVisible_free h.unseenNotOwned]
  exact h.of_agents (h.memFits.foldl_write h.unseenInside) h.racedOwns (by simp)

theorem Inv.makeVisible {s : State} (h : Inv s) : Inv s.makeVisible := by
  cases hu : s.unseen with
  | nil => rwa [makeVisible_nil hu]
  | cons c rest =>
    have hpending : ∀ d ∈ c :: rest, d.1 < memSize s.platform ∧ owns s d.1 = false := hu ▸ h.pendingStores
    obtain ⟨⟨hin, hfree⟩, hrest⟩ := List.forall_mem_cons.mp hpending
    rw [makeVisible_cons hu hfree]
    exact h.of_agents (h.memFits.write hin _) h.racedOwns hrest

/-- An access of a master, on each of its paths. -/
theorem Inv.act {s t : State} {who : Master} {x : Action} (h : Inv s) (hpath : ActPath s who x t) : Inv t := by
  cases hpath with
  | replyOnly r => exact h.setReply r
  | register off data _ _ hr => exact (h.writeReg hr off _).setReply _
  | racingLoad a ho => exact h.of_agents h.memFits (fun _ => ⟨a, ho⟩) h.pendingStores
  | racingStore a b ha ho => exact h.of_agents (h.memFits.raceStore ha) (fun _ => ⟨a, ho⟩) h.pendingStores
  | hostStore a b ha ho =>
    exact h.of_agents h.memFits h.racedOwns
      (List.forall_mem_append.mpr ⟨h.pendingStores, List.forall_mem_singleton.mpr ⟨ha, ho⟩⟩)
  | otherStore a b ha => exact h.of_agents (h.memFits.write ha b) h.racedOwns h.pendingStores
  | hostFence => exact h.makeAllVisible.setReply _

/-- A race is a race with a GBRE command: no other command owns a byte (20_memory R58). -/
theorem Inv.unraced {s : State} (h : Inv s) (hip : ∀ sp, decode s.cur.cmd ≠ .ok (.revip sp))
    (hcp : ∀ sp dp, decode s.cur.cmd ≠ .ok (.revcp sp dp)) : s.raced = false := by
  rw [← Bool.not_eq_true]
  intro hraced
  obtain ⟨a, ha⟩ := h.racedOwns hraced
  obtain ⟨-, ⟨sp, hd⟩ | ⟨sp, dp, hd⟩⟩ := owns_gbre ha
  · exact hip sp hd
  · exact hcp sp dp hd

/-- A PN command changes neither memory nor the race mark. -/
theorem Inv.of_finishPn {s t : State} {r : Word} (h : Inv s) (hb : s.status.busy = true) (hraced : s.raced = false)
    (ht : finishPn s r = .next t) : Inv t := by
  have hend := finishPn_ended ht
  rw [finishPn_eq] at ht
  cases ht
  exact h.of_ended hb hend h.memFits hraced

/-- A GBRE command changes memory within the address space and ends its race. -/
theorem Inv.of_bufferEnded {s t : State} {r : Region} (h : Inv s) (hb : s.status.busy = true)
    (hend : CommandEnded s t) (hbuf : BufferEnded r s t) : Inv t :=
  h.of_ended hb hend (h.memFits.of_sameOutside hbuf.mem) hbuf.raceOver

/-- A legal command in flight completes. -/
theorem Inv.exec {s t : State} {i : Instr} (h : Inv s) (hb : s.status.busy = true) (hd : decode s.cur.cmd = .ok i)
    (ht : exec i s = .next t) : Inv t := by
  cases i with
  | swap32 | swap64 | frev32 | frev64 => exact h.of_finishPn hb (h.unraced (by simp [hd]) (by simp [hd])) ht
  | revip => exact h.of_bufferEnded hb (exec_ended ht) (execRevip_bufferEnded h.memCanonical ht)
  | revcp => exact h.of_bufferEnded hb (exec_ended ht) (execRevcp_bufferEnded h.memCanonical ht)

/-- An illegal command word completes. -/
theorem Inv.illegal {s : State} {e : DecodeReject} (h : Inv s) (hb : s.status.busy = true)
    (hd : decode s.cur.cmd = .error e) : Inv (s.complete .illegalCmd) :=
  h.of_ended hb (complete_ended s _) h.memFits (h.unraced (by simp [hd]) (by simp [hd]))

theorem Inv.assertReset {s : State} (h : Inv s) : Inv s.assertReset := by
  refine (assertReset_brxAtReset s).inv rfl ?_ ?_
  · rw [assertReset_platform, assertReset_mem]
    exact h.memFits.abandon
  · rw [assertReset_platform, assertReset_unseen]
    exact h.unseenInside

theorem Inv.deassertReset {s : State} (h : Inv s) : Inv s.deassertReset := by
  cases hr : s.resetAsserted with
  | false => rwa [deassertReset_idle hr]
  | true =>
    have hbrx := deassertReset_brxAtReset hr
    rw [deassertReset_asserted hr] at hbrx ⊢
    exact hbrx.inv rfl h.memFits h.unseenInside

/-! ### The statements -/

/-- Settles O50: the BRX part is at reset, and memory and the pending stores are empty. -/
theorem invariantHoldsAtReset : Obligations.InvariantHoldsAtReset := fun p =>
  (resetOn_brxAtReset p).inv rfl ⟨rfl, fun _ _ => rfl⟩ fun _ hc => absurd hc List.not_mem_nil

/-- Settles O51: on each path of a step, from the state whose schedule has lost its head. -/
theorem everyStepKeepsTheInvariant : Obligations.EveryStepKeepsTheInvariant := by
  intro s t h hstep
  have hpop := h.popTurn
  cases step_path hstep with
  | idle => exact hpop
  | hostAct _ x rest _ host _ ht =>
    have hline : Inv { s.popTurn with host := host } := hpop.of_agents hpop.memFits hpop.racedOwns hpop.pendingStores
    exact hline.act ht
  | otherAct _ _ _ ht => exact hpop.act ht
  | command _ hb i hd _ ht => exact hpop.exec hb hd ht
  | illegal _ hb e hd => exact hpop.illegal hb hd
  | visible => exact hpop.makeVisible
  | resetOn => exact hpop.assertReset
  | resetOff => exact hpop.deassertReset

end Sys2Proof.Machine
end

section
/-! SUPPORT. What an access and a step keep, how BUSY and DOUT can change, how a run uses up its schedule, and the
statements on steps and runs settled from them (00_scope R9; 10_state R29, R37, R40, R49). -/

namespace Sys2Proof.Machine

/-! ### What an access keeps -/

/-- No agent's access reaches the platform, DOUT, the reset input or the schedule. -/
structure AccessFrame (s t : State) : Prop where
  platform : t.platform = s.platform
  dout : t.dout = s.dout
  resetAsserted : t.resetAsserted = s.resetAsserted
  turns : t.turns = s.turns

theorem writeReg_frame (s : State) (off : Nat) (v : Word) : AccessFrame s (writeReg s off v) := by
  rcases writeReg_cases s off v with ⟨-, -, hw⟩ | ⟨-, -, hw⟩ | hw | hw | hw | hw | hw <;> rw [hw]
  case inr.inl => exact ⟨s.accept_platform v, s.accept_dout v, s.accept_resetAsserted v, s.accept_turns v⟩
  all_goals exact ⟨rfl, rfl, rfl, rfl⟩

theorem landStore_frame (s : State) (c : Host.Cell) : AccessFrame s (s.landStore c) := by
  rw [landStore_eq]
  exact ⟨rfl, rfl, rfl, rfl⟩

theorem makeVisible_frame (s : State) : AccessFrame s s.makeVisible := by
  cases hu : s.unseen with
  | nil =>
    rw [makeVisible_nil hu]
    exact ⟨rfl, rfl, rfl, rfl⟩
  | cons c rest =>
    rw [State.makeVisible, hu]
    obtain ⟨hplatform, hdout, hreset, hturns⟩ := landStore_frame { s with unseen := rest } c
    exact ⟨hplatform, hdout, hreset, hturns⟩

theorem makeAllVisible_frame (s : State) : AccessFrame s s.makeAllVisible := by
  rw [State.makeAllVisible, foldl_landStore_eq]
  exact ⟨rfl, rfl, rfl, rfl⟩

theorem ActPath.frame {s t : State} {who : Master} {x : Action} (h : ActPath s who x t) : AccessFrame s t := by
  cases h with
  | register off data =>
    obtain ⟨hplatform, hdout, hreset, hturns⟩ := writeReg_frame s off (wordOfBytes data)
    exact ⟨hplatform, hdout, hreset, hturns⟩
  | hostFence =>
    obtain ⟨hplatform, hdout, hreset, hturns⟩ := makeAllVisible_frame s
    exact ⟨hplatform, hdout, hreset, hturns⟩
  | replyOnly | racingLoad | racingStore | hostStore | otherStore => exact ⟨rfl, rfl, rfl, rfl⟩

/-! ### What a step keeps -/

/-- A step uses up the head of the schedule and leaves the platform (00_scope R9). -/
theorem StepPath.platform_turns {s t : State} (h : StepPath s t) :
    t.platform = s.platform ∧ t.turns = s.turns.tail := by
  cases h with
  | idle => exact ⟨rfl, rfl⟩
  | hostAct _ _ _ _ _ _ ht => exact ⟨ht.frame.platform, ht.frame.turns⟩
  | otherAct _ _ _ ht => exact ⟨ht.frame.platform, ht.frame.turns⟩
  | command _ _ _ _ _ ht =>
    rw [(exec_ended ht).frame]
    exact ⟨rfl, rfl⟩
  | illegal => exact ⟨rfl, rfl⟩
  | visible => exact ⟨(makeVisible_frame s.popTurn).platform, (makeVisible_frame s.popTurn).turns⟩
  | resetOn => exact ⟨assertReset_platform s.popTurn, assertReset_turns s.popTurn⟩
  | resetOff =>
    unfold State.deassertReset
    split <;> exact ⟨rfl, rfl⟩

/-- A step that drives the reset input leaves no command in flight. -/
theorem StepPath.resetAsserted_of_busy {s t : State} (h : StepPath s t) (hb : t.status.busy = true)
    (hr : s.resetAsserted = false) : t.resetAsserted = false := by
  cases h with
  | idle => exact hr
  | hostAct _ _ _ _ _ _ ht => exact ht.frame.resetAsserted.trans hr
  | otherAct _ _ _ ht => exact ht.frame.resetAsserted.trans hr
  | command _ _ _ _ _ ht => exact absurd ((exec_ended ht).busy.symm.trans hb) (by decide)
  | illegal => exact hr
  | visible => exact (makeVisible_frame s.popTurn).resetAsserted.trans hr
  | resetOn => exact absurd hb Bool.false_ne_true
  | resetOff => rwa [deassertReset_idle (s := s.popTurn) hr]

/-! ### BUSY and DOUT -/

/-- `t` is the state right after an Accept of `v` (10_state R41). -/
structure Accepted (v : Word) (t : State) : Prop where
  cmd : t.cmd = v
  cur : t.cur.cmd = v
  status : t.status = ⟨true, false, false, .ok⟩

theorem accept_accepted (s : State) (v : Word) : Accepted v (s.accept v) :=
  ⟨s.accept_cmd v, congrArg Latched.cmd (s.accept_cur v), s.accept_status v⟩

/-- An access changes BUSY only by writing CMD, in an Accept (10_state R29). -/
theorem ActPath.busy_or_accepted {s t : State} {who : Master} {x : Action} (h : ActPath s who x t) :
    t.status.busy = s.status.busy ∨
    ∃ data, x = .busWrite (brxBase s.platform + 0x10) data ∧ Accepted (wordOfBytes data) t := by
  cases h with
  | register off data hx =>
    rcases writeReg_cases s off (wordOfBytes data) with
      ⟨-, -, hw⟩ | ⟨rfl, -, hw⟩ | hw | hw | hw | hw | hw <;> rw [hw]
    case inr.inl =>
      obtain ⟨hcmd, hcur, hstatus⟩ := accept_accepted s (wordOfBytes data)
      exact Or.inr ⟨data, hx, hcmd, hcur, hstatus⟩
    all_goals exact Or.inl rfl
  | hostFence =>
    rw [State.makeAllVisible, foldl_landStore_eq]
    exact Or.inl rfl
  | replyOnly | racingLoad | racingStore | hostStore | otherStore => exact Or.inl rfl

theorem makeVisible_busy (s : State) : s.makeVisible.status.busy = s.status.busy := by
  unfold State.makeVisible
  split
  · rfl
  · rw [landStore_eq]

/-- The agent whose turn it is makes the access `x`, a line of the host's program or another master's. -/
def Accesses (s : State) (x : Action) : Prop :=
  (nextTurn s = .host ∧ s.host.head? = some x) ∨ nextTurn s = .other x

/-- What a step can do to BUSY (10_state R29). -/
inductive BusyPath (s t : State) : Prop where
  | unchanged (h : t.status.busy = s.status.busy)
  | accepted (data : List Byte) (hx : Accesses s (.busWrite (brxBase s.platform + 0x10) data))
      (h : Accepted (wordOfBytes data) t)
  | completed (hturn : nextTurn s = .sequencer) (hbusy : t.status.busy = false) (hdone : t.status.done = true)
  | reset (hturn : nextTurn s = .resetOn ∨ nextTurn s = .resetOff) (h : t.status = Status.afterReset)

theorem StepPath.busyPath {s t : State} (h : StepPath s t) : BusyPath s t := by
  cases h with
  | idle => exact .unchanged rfl
  | hostAct hturn x rest hx _ _ ht =>
    rcases ht.busy_or_accepted with hb | ⟨data, rfl, hacc⟩
    · exact .unchanged hb
    · exact .accepted data (Or.inl ⟨hturn, congrArg List.head? hx⟩) hacc
  | otherAct x hturn _ ht =>
    rcases ht.busy_or_accepted with hb | ⟨data, rfl, hacc⟩
    · exact .unchanged hb
    · exact .accepted data (Or.inr hturn) hacc
  | command hturn _ _ _ _ ht => exact .completed hturn (exec_ended ht).busy (exec_ended ht).done
  | illegal hturn => exact .completed hturn rfl rfl
  | visible => exact .unchanged (makeVisible_busy _)
  | resetOn hturn => exact .reset (Or.inl hturn) rfl
  | resetOff hturn =>
    unfold State.deassertReset
    split
    · exact .reset (Or.inr hturn) rfl
    · exact .unchanged rfl

/-- Only the permutation commands write DOUT, and they report OK (10_state R37, 40_permutation_network R100). -/
theorem exec_dout_cases {s t : State} {i : Instr} (h : exec i s = .next t) : t.dout = s.dout ∨
    t.status.err = .ok ∧ i ∈ ([.swap32, .swap64, .frev32, .frev64] : List Instr) := by
  cases i with
  | swap32 | swap64 | frev32 | frev64 => exact Or.inr ⟨finishPn_ok h, by simp⟩
  | revip =>
    obtain ⟨_, _, hfin, -⟩ := execRevip_congr h s rfl rfl rfl rfl
    exact Or.inl (finish_setMem_dout hfin)
  | revcp =>
    obtain ⟨_, _, hfin, -⟩ := execRevcp_congr h s rfl rfl rfl rfl rfl
    exact Or.inl (finish_setMem_dout hfin)

/-! ### Runs -/

/-- A run goes on from the state its first step answers. -/
theorem run_succ_of_step {s t : State} (h : step s = .next t) (k : Nat) :
    Host.Core.run Sys2Proof.core (k + 1) s = Host.Core.run Sys2Proof.core k t := by
  have hstep : Sys2Proof.core.step s = .next t := h
  simp only [Host.Core.run, hstep]

/-- A run of one step that goes on is that step. -/
theorem step_of_run_one {s t : State} (h : Host.Core.run Sys2Proof.core 1 s = .next t) : step s = .next t := by
  cases hs : step s with
  | next u => exact (run_succ_of_step hs 0).symm.trans h
  | fault r | refused r =>
    have hstep : Sys2Proof.core.step s = _ := hs
    simp only [Host.Core.run, hstep] at h
    cases h

/-- When the schedule is used up the sequencer completes the command in flight (10_state R40; log entry 3). -/
theorem nextTurn_of_scheduleUsedUp {s : State} (ht : s.turns = []) (hr : s.resetAsserted = false)
    (hb : s.status.busy = true) : nextTurn s = .sequencer := by
  rw [nextTurn, ht]
  simp [hr, hb]

/-- A command in flight has ended after `n + 1` steps at the latest, where `n` turns stand in the schedule. -/
theorem busy_ends_within_schedule : ∀ (n : Nat) {s : State}, s.turns.length = n → s.status.busy = true →
    s.resetAsserted = false → (∀ k, k ≤ n + 1 → ∃ t, Host.Core.run Sys2Proof.core k s = .next t) →
    ∃ k t, 1 ≤ k ∧ k ≤ n + 1 ∧ Host.Core.run Sys2Proof.core k s = .next t ∧ t.status.busy = false := by
  intro n
  induction n with
  | zero =>
    intro s hlen hb hr hrun
    have hturn := nextTurn_of_scheduleUsedUp (List.length_eq_zero_iff.mp hlen) hr hb
    obtain ⟨t, ht⟩ := hrun 1 le_rfl
    have hseq : sequencerTurn s.popTurn = .next t := (step_of_nextTurn hturn).symm.trans (step_of_run_one ht)
    exact ⟨1, t, le_rfl, le_rfl, ht, (sequencerTurn_ended (s := s.popTurn) hb hseq).busy⟩
  | succ n ih =>
    intro s hlen hb hr hrun
    obtain ⟨u, hu⟩ := hrun 1 (by omega)
    cases hub : u.status.busy with
    | false => exact ⟨1, u, le_rfl, by omega, hu, hub⟩
    | true =>
      have hstep := step_of_run_one hu
      have hpath := step_path hstep
      have hulen : u.turns.length = n := by
        rw [hpath.platform_turns.2, List.length_tail, hlen, Nat.add_sub_cancel]
      have hurun : ∀ k, k ≤ n + 1 → ∃ t, Host.Core.run Sys2Proof.core k u = .next t := fun k hk => by
        rw [← run_succ_of_step hstep]
        exact hrun (k + 1) (by omega)
      obtain ⟨k, t, -, hk, ht, hidle⟩ := ih hulen hub (hpath.resetAsserted_of_busy hub hr) hurun
      exact ⟨k + 1, t, by omega, by omega, (run_succ_of_step hstep k).trans ht, hidle⟩

/-! ### The statements -/

/-- Settles O52: on each path of a step. -/
theorem noStepChangesThePlatform : Obligations.NoStepChangesThePlatform := fun _ _ h =>
  (step_path h).platform_turns.1

/-- Settles O53: of the paths that can change BUSY, only the Accept raises it, and Complete and reset lower it. -/
theorem busyRisesByAcceptAndFallsByComplete : Obligations.BusyRisesByAcceptAndFallsByComplete := by
  intro s t h
  cases (step_path h).busyPath with
  | unchanged hsame =>
    rw [hsame]
    exact ⟨fun hidle hrise => by simp [hidle] at hrise, fun hb hidle => by simp [hb] at hidle⟩
  | accepted data hx hacc =>
    exact ⟨fun _ _ => ⟨data, hacc.cmd, hacc.cur, hacc.status, hx⟩, fun _ hidle => by simp [hacc.status] at hidle⟩
  | completed hturn hbusy hdone =>
    exact ⟨fun _ hrise => by simp [hbusy] at hrise, fun _ _ => Or.inl ⟨hturn, hdone⟩⟩
  | reset hturn hstatus =>
    exact ⟨fun _ hrise => by simp [hstatus, Status.afterReset] at hrise,
      fun _ _ => Or.inr ⟨hturn, by rw [hstatus]; rfl⟩⟩

/-- Settles O54: no access and no other command writes DOUT. -/
theorem doutChangesOnlyByPermutationCommands : Obligations.DoutChangesOnlyByPermutationCommands := by
  intro s t h hne
  cases step_path h with
  | idle | illegal => exact absurd rfl hne
  | hostAct _ _ _ _ _ _ ht => exact absurd ht.frame.dout hne
  | otherAct _ _ _ ht => exact absurd ht.frame.dout hne
  | command hturn hb i hd _ ht =>
    obtain ⟨herr, hi⟩ := (exec_dout_cases ht).resolve_left hne
    exact Or.inl ⟨hturn, hb, herr, i, hi, hd⟩
  | visible => exact absurd (makeVisible_frame s.popTurn).dout hne
  | resetOn hturn => exact Or.inr (Or.inl hturn)
  | resetOff hturn => exact Or.inr (Or.inr hturn)

/-- Settles O55: each step uses up a turn, and when none is left the sequencer completes the command. -/
theorem commandInFlightCompletes : Obligations.CommandInFlightCompletes := fun _ hb hr hrun =>
  busy_ends_within_schedule _ rfl hb hr hrun

end Sys2Proof.Machine
end
